-- ==== Sys2Proof/Word.lean ====
section
/-! DEFINITION. The word types of the MMM block: the 32-bit bus word and the byte of one bus lane. -/

namespace Sys2Proof

/-- A 32-bit bus word (10_state.md R21, 20_memory.md R35). Bit 0 is the least significant (00_scope.md R10). -/
abbrev Word := BitVec 32

/-- The byte one bus lane carries (20_memory.md R36). -/
abbrev Byte := BitVec 8

end Sys2Proof
end

