-- ==== Sys2Proof/Config.lean ====
section
/-! DEFINITION. What an implementation fixes (00_scope.md R6 to R8), held as plain data so that every claim covers
every legal instance of the block, and the one free value of the model. -/

namespace Sys2Proof

/-- How a run treats a read of an operand word that is unwritten since RST (10_state.md R32; log 2). -/
inductive UnwrittenRead where
  /-- R32 as written: the read is a fault of the model, and the run stops -/
  | fault
  /-- the block goes on: the word holds some value the spec does not fix (R31), a free value -/
  | free
deriving DecidableEq, Repr

/-- The parameters of one instance of the block. No step changes them. -/
structure Params where
  /-- W/32, the number of bus words of an operand register (R6; the WWORDS field of R23) -/
  wwords : Nat
  /-- NREG, the number of operand registers (R7) -/
  nreg : Nat
  /-- BASE, the byte address of the aperture (R8) -/
  base : Nat
  /-- MODEL's own (log 2): how a run treats a read of an unwritten word -/
  unwritten : UnwrittenRead
deriving DecidableEq, Repr

namespace Params

/-- W, the operand width in bits (R6). -/
def width (p : Params) : Nat := 32 * p.wwords

/-- The instances the spec allows: 32 ≤ W ≤ 4096 (R6), 4 ≤ NREG ≤ 16 (R7), BASE a multiple of 0x4000 (R8). -/
abbrev Legal (p : Params) : Prop :=
  1 ≤ p.wwords ∧ p.wwords ≤ 128 ∧ 4 ≤ p.nreg ∧ p.nreg ≤ 16 ∧ p.base % 0x4000 = 0

/-- The production instance, W = 1024 and NREG = 8 (R6, R7). DESIGN CHOICE, log 1: BASE = 0, which the spec leaves
to the platform. DESIGN CHOICE, log 2: unwritten words read as free values, so that a program runs from reset. -/
def production : Params := { wwords := 32, nreg := 8, base := 0, unwritten := .free }

end Params

/-- FREE VALUE (log 3). `Config.freeWord n f j` is what read number `n` of an unwritten word sees in word `j` of the
register that operand field `f` names (0: RA, 1: RB, 2: RC, 3: a bus read). It has no body: nothing constrains it
(10_state.md R32: "some value the spec does not fix"; two reads need not agree). -/
opaque Config.freeWord (n f j : Nat) : Word

end Sys2Proof
end

