-- ==== Sys2Proof/Syntax.lean ====
section
/-! DEFINITION. The commands of the block: one constructor per row of spec/opcode_table.json. -/

namespace Sys2Proof

/-- An operand register index, an unsigned 4-bit number (30_encoding.md R52). Whether it is below NREG is a run-time
check of the instance (R55), not a matter of syntax. -/
abbrev RegIx := Fin 16

/-- A command (30_encoding.md R51, R57). The arguments are its used fields, destinations first, then RA, RB, RC. -/
inductive Instr where
  /-- 44_control.md R78 -/
  | nop
  /-- 40_montgomery.md R61 -/
  | montmul (rd ra rb rc : RegIx)
  /-- 40_montgomery.md R62 -/
  | montr2 (rd rc : RegIx)
  /-- 40_montgomery.md R63 -/
  | tomont (rd ra rc : RegIx)
  /-- 40_montgomery.md R64 -/
  | frommont (rd ra rc : RegIx)
  /-- 41_modexp.md R65 -/
  | modred (rd ra rc : RegIx)
  /-- 41_modexp.md R66 -/
  | modmul (rd ra rb rc : RegIx)
  /-- 41_modexp.md R67: `ra` the base, `rb` the exponent, `rc` the modulus -/
  | modexp (rd ra rb rc : RegIx)
  /-- 42_euclid.md R70 -/
  | gcd (rd ra rb : RegIx)
  /-- 42_euclid.md R71: `rd` receives bx, `re` receives by -/
  | xgcd (rd re ra rb : RegIx)
  /-- 42_euclid.md R72: `rc` the modulus -/
  | modinv (rd ra rc : RegIx)
  /-- 43_primality.md R75: `ra` the witness, `rc` the candidate -/
  | rmwit (ra rc : RegIx)
deriving DecidableEq, Repr

end Sys2Proof
end

