-- ==== Sys2Proof/WellFormed.lean ====
section
/-! DEFINITION. Which terms of Instr are legal commands. -/

namespace Sys2Proof

/-- A command is well formed unless it is an XGCD with both results in one register (30_encoding.md R54, condition 4).
The other conditions of R54 are about the word's bits and cannot be written as a term of Instr. -/
def Instr.wellFormed : Instr → Bool
  | .nop => true
  | .montmul _ _ _ _ => true
  | .montr2 _ _ => true
  | .tomont _ _ _ => true
  | .frommont _ _ _ => true
  | .modred _ _ _ => true
  | .modmul _ _ _ _ => true
  | .modexp _ _ _ _ => true
  | .gcd _ _ _ => true
  | .xgcd rd re _ _ => rd != re
  | .modinv _ _ _ => true
  | .rmwit _ _ => true

end Sys2Proof
end

