-- ==== Sys2Proof/Decode.lean ====
section
/-! DEFINITION. The command word: its fields, the decoder, the encoder, the opcode map, and the byte lanes that carry
a word (30_encoding.md R49 to R56, 20_memory.md R36). -/

namespace Sys2Proof

/-! ## Fields (R50) -/

/-- OP, bits 7:0. -/
def opOf (c : Word) : BitVec 8 := c.extractLsb' 0 8
/-- RD, bits 11:8. -/
def rdOf (c : Word) : BitVec 4 := c.extractLsb' 8 4
/-- RE, bits 15:12. -/
def reOf (c : Word) : BitVec 4 := c.extractLsb' 12 4
/-- RA, bits 19:16. -/
def raOf (c : Word) : BitVec 4 := c.extractLsb' 16 4
/-- RB, bits 23:20. -/
def rbOf (c : Word) : BitVec 4 := c.extractLsb' 20 4
/-- RC, bits 27:24. -/
def rcOf (c : Word) : BitVec 4 := c.extractLsb' 24 4
/-- RSV, bits 31:28. -/
def rsvOf (c : Word) : BitVec 4 := c.extractLsb' 28 4

/-- A used field as a register index (R52). -/
def ixOf (f : BitVec 4) : RegIx := f.toFin

/-- A register index as the bits of its field (R52). -/
def ixBits (k : RegIx) : BitVec 4 := BitVec.ofFin k

/-! ## Which fields a command uses (R51) -/

/-- One row of the field table of R51: which register fields the opcode uses. -/
structure FieldUse where
  rd : Bool
  re : Bool
  ra : Bool
  rb : Bool
  rc : Bool
deriving DecidableEq, Repr

/-- The field table of R51, by opcode. A reserved opcode uses no field. -/
def fieldUse : Nat → FieldUse
  | 0x00 => ⟨false, false, false, false, false⟩
  | 0x01 => ⟨true, false, true, true, true⟩
  | 0x02 => ⟨true, false, false, false, true⟩
  | 0x03 => ⟨true, false, true, false, true⟩
  | 0x04 => ⟨true, false, true, false, true⟩
  | 0x05 => ⟨true, false, true, false, true⟩
  | 0x06 => ⟨true, false, true, true, true⟩
  | 0x07 => ⟨true, false, true, true, true⟩
  | 0x08 => ⟨true, false, true, true, false⟩
  | 0x09 => ⟨true, true, true, true, false⟩
  | 0x0A => ⟨true, false, true, false, true⟩
  | 0x0B => ⟨false, false, true, false, true⟩
  | _ => ⟨false, false, false, false, false⟩

/-- Some field that R51 marks unused for the word's opcode is not 0 (R54, condition 3). -/
def unusedFieldSet (c : Word) : Bool :=
  let u := fieldUse (opOf c).toNat
  (!u.rd && rdOf c != 0) || (!u.re && reOf c != 0) || (!u.ra && raOf c != 0)
    || (!u.rb && rbOf c != 0) || (!u.rc && rcOf c != 0)

/-! ## The decoder -/

/-- Why a word is illegal: the four conditions of R54, in order, and bytes that are not one word. -/
inductive DecodeError where
  /-- R54 condition 1: the opcode is 0x0C or above -/
  | reservedOpcode
  /-- R54 condition 2: RSV is not 0 -/
  | reservedField
  /-- R54 condition 3: an unused field is not 0 -/
  | unusedField
  /-- R54 condition 4: XGCD with RD = RE -/
  | sameDestination
  /-- the bytes are not the four lanes of one word (20_memory.md R35, 30_encoding.md R49) -/
  | notOneWord
deriving DecidableEq, Repr

/-- The command a word stands for, or the first condition of R54 it meets. -/
def decode (c : Word) : Except DecodeError Instr :=
  if 0x0C ≤ (opOf c).toNat then .error .reservedOpcode
  else if rsvOf c ≠ 0 then .error .reservedField
  else if unusedFieldSet c then .error .unusedField
  else
    let rd := ixOf (rdOf c)
    let re := ixOf (reOf c)
    let ra := ixOf (raOf c)
    let rb := ixOf (rbOf c)
    let rc := ixOf (rcOf c)
    match (opOf c).toNat with
    | 0x00 => .ok .nop
    | 0x01 => .ok (.montmul rd ra rb rc)
    | 0x02 => .ok (.montr2 rd rc)
    | 0x03 => .ok (.tomont rd ra rc)
    | 0x04 => .ok (.frommont rd ra rc)
    | 0x05 => .ok (.modred rd ra rc)
    | 0x06 => .ok (.modmul rd ra rb rc)
    | 0x07 => .ok (.modexp rd ra rb rc)
    | 0x08 => .ok (.gcd rd ra rb)
    | 0x09 => if rd = re then .error .sameDestination else .ok (.xgcd rd re ra rb)
    | 0x0A => .ok (.modinv rd ra rc)
    | 0x0B => .ok (.rmwit ra rc)
    | _ => .error .reservedOpcode

/-! ## The encoder -/

/-- The opcode of a command (R51). -/
def Instr.opcode : Instr → BitVec 8
  | .nop => 0x00
  | .montmul _ _ _ _ => 0x01
  | .montr2 _ _ => 0x02
  | .tomont _ _ _ => 0x03
  | .frommont _ _ _ => 0x04
  | .modred _ _ _ => 0x05
  | .modmul _ _ _ _ => 0x06
  | .modexp _ _ _ _ => 0x07
  | .gcd _ _ _ => 0x08
  | .xgcd _ _ _ _ => 0x09
  | .modinv _ _ _ => 0x0A
  | .rmwit _ _ => 0x0B

/-- The word with the given fields and RSV = 0, most significant field first (R50). -/
def packCommand (op : BitVec 8) (rd re ra rb rc : RegIx) : Word :=
  0#4 ++ ixBits rc ++ ixBits rb ++ ixBits ra ++ ixBits re ++ ixBits rd ++ op

/-- The word of a command, from the field table R51: used fields hold their index, unused fields 0. -/
def encode (i : Instr) : Word :=
  match i with
  | .nop => packCommand i.opcode 0 0 0 0 0
  | .montmul rd ra rb rc => packCommand i.opcode rd 0 ra rb rc
  | .montr2 rd rc => packCommand i.opcode rd 0 0 0 rc
  | .tomont rd ra rc => packCommand i.opcode rd 0 ra 0 rc
  | .frommont rd ra rc => packCommand i.opcode rd 0 ra 0 rc
  | .modred rd ra rc => packCommand i.opcode rd 0 ra 0 rc
  | .modmul rd ra rb rc => packCommand i.opcode rd 0 ra rb rc
  | .modexp rd ra rb rc => packCommand i.opcode rd 0 ra rb rc
  | .gcd rd ra rb => packCommand i.opcode rd 0 ra rb 0
  | .xgcd rd re ra rb => packCommand i.opcode rd re ra rb 0
  | .modinv rd ra rc => packCommand i.opcode rd 0 ra 0 rc
  | .rmwit ra rc => packCommand i.opcode 0 0 ra 0 rc

/-! ## The registers a command names (R51) -/

/-- The registers the used fields name. -/
def Instr.usedRegs : Instr → List RegIx
  | .nop => []
  | .montmul rd ra rb rc => [rd, ra, rb, rc]
  | .montr2 rd rc => [rd, rc]
  | .tomont rd ra rc => [rd, ra, rc]
  | .frommont rd ra rc => [rd, ra, rc]
  | .modred rd ra rc => [rd, ra, rc]
  | .modmul rd ra rb rc => [rd, ra, rb, rc]
  | .modexp rd ra rb rc => [rd, ra, rb, rc]
  | .gcd rd ra rb => [rd, ra, rb]
  | .xgcd rd re ra rb => [rd, re, ra, rb]
  | .modinv rd ra rc => [rd, ra, rc]
  | .rmwit ra rc => [ra, rc]

/-- The source registers: the used ones among RA, RB, RC. -/
def Instr.sources : Instr → List RegIx
  | .nop => []
  | .montmul _ ra rb rc => [ra, rb, rc]
  | .montr2 _ rc => [rc]
  | .tomont _ ra rc => [ra, rc]
  | .frommont _ ra rc => [ra, rc]
  | .modred _ ra rc => [ra, rc]
  | .modmul _ ra rb rc => [ra, rb, rc]
  | .modexp _ ra rb rc => [ra, rb, rc]
  | .gcd _ ra rb => [ra, rb]
  | .xgcd _ _ ra rb => [ra, rb]
  | .modinv _ ra rc => [ra, rc]
  | .rmwit ra rc => [ra, rc]

/-- The destination registers: the used ones among RD, RE. -/
def Instr.dests : Instr → List RegIx
  | .nop => []
  | .montmul rd _ _ _ => [rd]
  | .montr2 rd _ => [rd]
  | .tomont rd _ _ => [rd]
  | .frommont rd _ _ => [rd]
  | .modred rd _ _ => [rd]
  | .modmul rd _ _ _ => [rd]
  | .modexp rd _ _ _ => [rd]
  | .gcd rd _ _ => [rd]
  | .xgcd rd re _ _ => [rd, re]
  | .modinv rd _ _ => [rd]
  | .rmwit _ _ => []

/-! ## The opcode map (R53) -/

/-- One row of the opcode map of R53: a word `c` selects the row when `c &&& mask = value`. -/
structure OpcodeRow where
  op : BitVec 8
  value : Word
  mask : Word
deriving DecidableEq, Repr

/-- The opcode map of R53, in the table's order. The decoder does not use it: that the two agree is a claim. -/
def opcodeMap : List OpcodeRow :=
  [⟨0x00, 0x00000000, 0xFFFFFFFF⟩, ⟨0x01, 0x00000001, 0xF000F0FF⟩, ⟨0x02, 0x00000002, 0xF0FFF0FF⟩,
   ⟨0x03, 0x00000003, 0xF0F0F0FF⟩, ⟨0x04, 0x00000004, 0xF0F0F0FF⟩, ⟨0x05, 0x00000005, 0xF0F0F0FF⟩]
  ++ [⟨0x06, 0x00000006, 0xF000F0FF⟩, ⟨0x07, 0x00000007, 0xF000F0FF⟩, ⟨0x08, 0x00000008, 0xFF00F0FF⟩,
   ⟨0x09, 0x00000009, 0xFF0000FF⟩, ⟨0x0A, 0x0000000A, 0xF0F0F0FF⟩, ⟨0x0B, 0x0000000B, 0xF0F0FFFF⟩]

/-- The word selects the row (R53). -/
def OpcodeRow.selects (r : OpcodeRow) (c : Word) : Bool := c &&& r.mask == r.value

/-! ## Byte lanes (20_memory.md R36) -/

/-- The byte on lane `k`, bits [8k+7 : 8k] of the word. -/
def laneByte (w : Word) (k : Nat) : Byte := w.extractLsb' (8 * k) 8

/-- The word whose lanes 0 to 3 carry the given bytes. -/
def wordOfLanes (b0 b1 b2 b3 : Byte) : Word := b3 ++ b2 ++ b1 ++ b0

/-- The four bytes of a word, lane 0 first. -/
def lanesOf (w : Word) : List Byte := [laneByte w 0, laneByte w 1, laneByte w 2, laneByte w 3]

/-- The command in the bytes of one bus word, lowest address first. Any other number of bytes is no command word:
every command is exactly one 32-bit word (30_encoding.md R49). -/
def decodeBytes : List Byte → Except DecodeError Instr
  | [b0, b1, b2, b3] => decode (wordOfLanes b0 b1 b2 b3)
  | _ => .error .notOneWord

/-- The word whose low `nbits` bits are those of `w`, the bits above 0. -/
def tableWord (nbits w : Nat) : Word := BitVec.ofNat 32 (w % 2 ^ nbits)

/-- The instruction the decoder reads from an instruction whose bits are `w` as spec/opcode_table.json numbers them.
A command is one 32-bit word, so a longer one is none. -/
def decodeTableWord (nbits w : Nat) : Option Instr :=
  if 32 < nbits then none
  else match decodeBytes (lanesOf (tableWord nbits w)) with
    | .ok i => some i
    | .error _ => none

end Sys2Proof
end

