-- ==== Sys2Proof/Machine/State.lean ====
section
/-! DEFINITION. The state of the MMM block as plain data (10_state.md R31, R33), the events that drive it, the reasons
it stops, and its reset. -/

namespace Sys2Proof.Machine

/-- A bus access reads or writes (20_memory.md R34). -/
inductive BusKind where
  | read
  | write
deriving DecidableEq, Repr

/-- One bus access at an aperture offset (20_memory.md R34). `size` is in bytes; `data` is the write data. Only a
4-byte access uses its data, so 32 bits of it suffice (log 13). -/
structure Access where
  kind : BusKind
  off : Nat
  size : Nat
  data : Word
deriving DecidableEq, Repr

/-- One event of the total order of 20_memory.md R42. -/
inductive Event where
  /-- a Host access at an aperture offset (R34) -/
  | access (a : Access)
  /-- a Host access at a system address, which BASE maps to an offset (00_scope.md R8) -/
  | bus (kind : BusKind) (addr size : Nat) (data : Word)
  /-- the Engine completes the command in progress (44_control.md R81) -/
  | engine
  /-- the RST input is asserted (70_reset_and_hazards.md R101) -/
  | rst
deriving DecidableEq, Repr

/-- The error codes of STATUS.ERRCODE (60_exceptions.md R86). Codes 7 to 15 are never produced and have no name. -/
inductive ErrCode where
  | none
  | illegal
  | badreg
  | modulus
  | range
  | domain
  | aborted
deriving DecidableEq, Repr

/-- Everything the spec gives the machine (10_state.md R31), with the model's own fields marked. -/
structure State where
  /-- the instance: W, NREG and BASE (R6 to R8); hardwired -/
  params : Params
  /-- word j of operand register i is entry j of entry i; none: unwritten since RST (R32, R33) -/
  x : List (List (Option Word))
  /-- CTRL.IE (R24) -/
  ie : Bool
  /-- the latched command, which CMD reads back (R25) -/
  L : Word
  /-- STATUS.BUSY (R26): a command is in progress -/
  busy : Bool
  /-- STATUS.DONE (R26) -/
  done : Bool
  /-- STATUS.RESULT (R26) -/
  result : Bool
  /-- STATUS.ERRCODE (R26); STATUS.ERR is errcode ≠ none (R27) -/
  errcode : ErrCode
  /-- STATUS.OVERRUN (R26), sticky -/
  overrun : Bool
  /-- STATUS.ACCERR (R26), sticky -/
  accerr : Bool
  /-- MODEL's own (log 6): the data the last bus access returned; none after a write -/
  reply : Option Word
  /-- MODEL's own (log 4): the pending events, the next one first -/
  events : List Event
  /-- MODEL's own (logs 2 and 3): how many commands and Host reads have gone on with the free value of an unwritten
  word -/
  freeCount : Nat
deriving DecidableEq, Repr

/-- Why a run stops: the two faults of the model that 10_state.md R32 names, in an instance that treats a read of an
unwritten word as R32 says (log 2). The block itself never stops (60_exceptions.md R85). -/
inductive Fault where
  /-- raised by a command (`State.command`) with a source register that has an unwritten word (R32, 44_control.md R80:
  "the model faults; the spec gives that case no outcome"); safe: no proof can rely on the value -/
  | unwrittenOperand
  /-- raised by a Host read (`readWindow`) of an unwritten operand word (R32); safe, for the same reason -/
  | unwrittenRead
deriving DecidableEq, Repr

/-- Why the model has no meaning for an instruction. -/
inductive Refusal where
  /-- raised by exec's arm for an instruction without a meaning; safe. No arm raises it now. -/
  | notModelled (mnemonic : String)
deriving DecidableEq, Repr

/-- The block right after a power-on reset of instance `p` (10_state.md R31, 70_reset_and_hazards.md R101), with no
pending event. The operand words are unwritten (R32; log 2). DESIGN CHOICE, logs 3, 4 and 6: the model's own fields
start at 0, empty and none. -/
def State.resetOf (p : Params) : State :=
  { params := p
    x := List.replicate p.nreg (List.replicate p.wwords none)
    ie := false
    L := 0
    busy := false
    done := false
    result := false
    errcode := .none
    overrun := false
    accerr := false
    reply := none
    events := []
    freeCount := 0 }

/-- The production instance right after reset (R6, R7, R31). -/
def State.reset : State := State.resetOf Params.production

end Sys2Proof.Machine
end

