-- ==== Sys2Proof/Machine/Flags.lean ====
section
/-! DEFINITION. The status flags and the words the control and status registers read as (10_state.md R22 to R29,
20_memory.md R48). -/

namespace Sys2Proof.Machine

/-- The code of an error in STATUS.ERRCODE (60_exceptions.md R86). -/
def ErrCode.bits : ErrCode → BitVec 4
  | .none => 0
  | .illegal => 1
  | .badreg => 2
  | .modulus => 3
  | .range => 4
  | .domain => 5
  | .aborted => 6

/-- STATUS.ERR (10_state.md R27). -/
def State.err (s : State) : Bool := s.errcode != .none

/-- The IRQ output (10_state.md R29). -/
def State.irq (s : State) : Bool := s.ie && s.done

/-- The bits of a flag. -/
def flagBit (b : Bool) : BitVec 1 := if b then 1 else 0

/-- The STATUS word (20_memory.md R48). -/
def State.statusWord (s : State) : Word :=
  0#14 ++ flagBit s.accerr ++ flagBit s.overrun ++ 0#4 ++ s.errcode.bits ++ 0#4
    ++ flagBit s.result ++ flagBit s.err ++ flagBit s.done ++ flagBit s.busy

/-- The CTRL word, `zext_32(IE)` (10_state.md R24). -/
def State.ctrlWord (s : State) : Word := 0#31 ++ flagBit s.ie

/-- The ID word (10_state.md R22). -/
def idWord : Word := 0x4D4D0001

/-- The CONFIG word: NREGS in 12:8, WWORDS in 7:0 (10_state.md R23). -/
def configWord (p : Params) : Word := 0#19 ++ BitVec.ofNat 5 p.nreg ++ BitVec.ofNat 8 p.wwords

end Sys2Proof.Machine
end

