-- ==== Sys2Proof/Machine/Operands.lean ====
section
/-! DEFINITION. Operand registers: their words, their value as a natural number, and how commands and the bus read and
write them (10_state.md R19, R20, R32; 20_memory.md R37; 00_scope.md R11, R12). -/

namespace Sys2Proof.Machine

/-! ## A value as words, least significant first (20_memory.md R37) -/

/-- The natural number whose 32-bit words are given, word 0 first. -/
def wordsToNat : List Word → Nat
  | [] => 0
  | w :: ws => w.toNat + 2 ^ 32 * wordsToNat ws

/-- The low `n` words of a natural number, word 0 first. -/
def natToWords : Nat → Nat → List Word
  | 0, _ => []
  | n + 1, v => BitVec.ofNat 32 v :: natToWords n (v / 2 ^ 32)

/-- `twos_W(z)`: the W-bit two's complement encoding of an integer (00_scope.md R12). -/
def twos (W : Nat) (z : Int) : Nat := (z % (2 : Int) ^ W).toNat

/-- `sext`: a W-bit value read as signed two's complement (00_scope.md R12). -/
def sext (W v : Nat) : Int := if v < 2 ^ (W - 1) then (v : Int) else (v : Int) - (2 : Int) ^ W

/-! ## The register file -/

/-- Word `j` of operand register `k`; none when it is unwritten since RST (R32) or does not exist. -/
def State.word (s : State) (k j : Nat) : Option Word := (s.x.getD k []).getD j none

/-- All W/32 words of register `k` are written (R32). -/
def State.written (s : State) (k : Nat) : Bool :=
  (List.range s.params.wwords).all fun j => (s.word k j).isSome

/-- Word `j` of register `k` as the read numbered `freeCount` sees it: the written word, or a free value (log 3). -/
def State.readWord (s : State) (f k j : Nat) : Word :=
  (s.word k j).getD (Config.freeWord s.freeCount f j)

/-- The value of register `k` when operand field `f` names it as a source (R11, R52): the number its words make. -/
def State.operand (s : State) (f : Nat) (k : RegIx) : Nat :=
  wordsToNat ((List.range s.params.wwords).map (s.readWord f k.val))

/-- The operand that field RA names. -/
def State.opA (s : State) (k : RegIx) : Nat := s.operand 0 k
/-- The operand that field RB names. -/
def State.opB (s : State) (k : RegIx) : Nat := s.operand 1 k
/-- The operand that field RC names. -/
def State.opC (s : State) (k : RegIx) : Nat := s.operand 2 k

/-- Every given register is written. -/
def State.allWritten (s : State) (ks : List RegIx) : Bool := ks.all fun k => s.written k.val

/-- The given source registers may be read: all their words are written, or the instance reads unwritten words as free
values (R32; log 2). -/
def State.readable (s : State) (ks : List RegIx) : Bool := s.params.unwritten == .free || s.allWritten ks

/-- The state after the given source registers have been read: a read that met an unwritten word used up one number of
free values (logs 2 and 3). -/
def State.afterRead (s : State) (ks : List RegIx) : State :=
  { s with freeCount := if s.allWritten ks then s.freeCount else s.freeCount + 1 }

/-- A register write by a command: every word of register `k` (R20, R32). A value is below 2^W (R11). -/
def writeRegFile (wwords : Nat) (x : List (List (Option Word))) (k : RegIx) (v : Nat) : List (List (Option Word)) :=
  x.set k.val ((natToWords wwords v).map some)

/-- The writes of a command, all at once (44_control.md R81). They name different registers (R54, condition 4). -/
def writeRegs (wwords : Nat) (x : List (List (Option Word))) (ws : List (RegIx × Nat)) : List (List (Option Word)) :=
  ws.foldl (fun y w => writeRegFile wwords y w.1 w.2) x

/-- A bus write of one word of the operand window (20_memory.md R37). -/
def State.setWord (s : State) (k j : Nat) (w : Word) : State :=
  { s with x := s.x.set k ((s.x.getD k []).set j (some w)) }

end Sys2Proof.Machine
end

