-- ==== Sys2Proof/Machine/Ops.lean ====
section
/-! DEFINITION. The shared operations: issue, completion with or without an error (this block's only "exception",
60_exceptions.md R85, R92), abort, the resets, and the common frame of every command (44_control.md R79 to R82). -/

namespace Sys2Proof.Machine

/-! ## Issue, completion, abort, reset -/

/-- An accepted command: it is latched and BUSY is set (44_control.md R79). OVERRUN and ACCERR are unchanged. -/
def State.accept (c : Word) (s : State) : State :=
  { s with L := c, busy := true, done := false, result := false, errcode := .none }

/-- What a command's body gives (44_control.md R80): staged writes with a Boolean result, or the first error. -/
inductive CmdResult where
  | ok (writes : List (RegIx × Nat)) (result : Bool)
  | err (code : ErrCode)
deriving DecidableEq, Repr

/-- Completion (44_control.md R81). An error is recorded, writes no register and stops nothing (R85, R88, R92). -/
def State.complete (r : CmdResult) (s : State) : State :=
  match r with
  | .ok ws b =>
    { s with x := writeRegs s.params.wwords s.x ws, result := b, errcode := .none, busy := false, done := true }
  | .err c => { s with result := false, errcode := c, busy := false, done := true }

/-- CTRL.ABORT (44_control.md R82). -/
def State.abort (s : State) : State :=
  if s.busy then s.complete (.err .aborted) else s

/-- CTRL.SRST (70_reset_and_hazards.md R102): the operand registers keep their values. -/
def State.softReset (s : State) : State :=
  { s with ie := false, L := 0, busy := false, done := false, result := false, errcode := .none,
           overrun := false, accerr := false }

/-- RST (70_reset_and_hazards.md R101): the instance after reset. The pending events and the free-value counter are the
model's own and go on (log 14). -/
def State.powerOnReset (s : State) : State :=
  { State.resetOf s.params with events := s.events, freeCount := s.freeCount }

/-! ## The common frame of a command (44_control.md R80) -/

/-- A command that uses registers `used`, reads `srcs` and whose body gives `r`: BADREG first (30_encoding.md R55), which
reads no register (log 19); then the fault of 10_state.md R32 when a source has an unwritten word and the instance treats
that as R32 says; else completion with `r`, in which an unwritten source word is a free value (log 2). -/
def State.command (used srcs : List RegIx) (r : CmdResult) (s : State) : Host.Outcome State Fault Refusal :=
  if used.any (fun k => s.params.nreg ≤ k.val) then .next (s.complete (.err .badreg))
  else if s.readable srcs then .next ((s.afterRead srcs).complete r)
  else .fault .unwrittenOperand

end Sys2Proof.Machine
end

