-- ==== Sys2Proof/Machine/Bus.lean ====
section
/-! DEFINITION. The Host's accesses to the register aperture (20_memory.md, 10_state.md R21 to R28). -/

namespace Sys2Proof.Machine

/-- What an aligned offset of the aperture holds (10_state.md R21; 20_memory.md R37 to R39). -/
inductive Region where
  | id
  | config
  | ctrl
  | cmd
  | status
  | clear
  /-- word `j` of operand register `i` -/
  | window (i j : Nat)
  | unmapped
deriving DecidableEq, Repr

/-- The aperture offset of word `j` of operand register `i` (20_memory.md R37). -/
def windowOffset (i j : Nat) : Nat := 0x1000 + 0x200 * i + 4 * j

/-- The map of the aperture (20_memory.md R39). With NREG = 16 the offsets from 0x3000 on are unmapped too (log 9). -/
def regionOf (p : Params) (off : Nat) : Region :=
  if off = 0x0000 then .id
  else if off = 0x0004 then .config
  else if off = 0x0008 then .ctrl
  else if off = 0x000C then .cmd
  else if off = 0x0010 then .status
  else if off = 0x0014 then .clear
  else if off < 0x1000 then .unmapped
  else
    let i := (off - 0x1000) / 0x200
    let j := (off - 0x1000) % 0x200 / 4
    if i < p.nreg ∧ j < p.wwords then .window i j else .unmapped

/-- The bus returns `d` to a read (20_memory.md R34; log 6). -/
def State.answer (d : Word) (s : State) : State := { s with reply := some d }

/-- A write returns no data (log 6). -/
def State.noAnswer (s : State) : State := { s with reply := none }

/-- An access error: ACCERR is set, a read returns 0, a write has no other effect (20_memory.md R35, R38). -/
def State.accessError (k : BusKind) (s : State) : State :=
  { s with accerr := true, reply := match k with | .read => some 0 | .write => none }

/-- A Host read of word `j` of register `i`, allowed while BUSY (20_memory.md R37). An unwritten word is
the fault of 10_state.md R32, or a free value, as the instance says (log 2). -/
def readWindow (i j : Nat) (s : State) : Host.Outcome State Fault Refusal :=
  match s.word i j with
  | some w => .next (s.answer w)
  | none =>
    match s.params.unwritten with
    | .fault => .fault .unwrittenRead
    | .free => .next { s.answer (s.readWord 3 i j) with freeCount := s.freeCount + 1 }

/-- A Host write of word `j` of register `i`: ignored with OVERRUN while BUSY (20_memory.md R37). -/
def writeWindow (i j : Nat) (v : Word) (s : State) : State :=
  if s.busy then { s with overrun := true } else s.setWord i j v

/-- A write of CTRL (10_state.md R24): SRST alone if bit 2 is set, else IE from bit 0 and then ABORT from bit 1. -/
def writeCtrl (v : Word) (s : State) : State :=
  if v.getLsbD 2 then s.softReset
  else
    let s1 := { s with ie := v.getLsbD 0 }
    if v.getLsbD 1 then s1.abort else s1

/-- A write of CMD (10_state.md R25; 44_control.md R79). -/
def writeCmd (c : Word) (s : State) : State :=
  if s.busy then { s with overrun := true } else s.accept c

/-- A write of CLEAR (10_state.md R28). -/
def writeClear (v : Word) (s : State) : State :=
  { s with
    done := s.done && !v.getLsbD 1
    overrun := s.overrun && !v.getLsbD 16
    accerr := s.accerr && !v.getLsbD 17 }

/-- An aligned 32-bit read (20_memory.md R48). -/
def hostRead (off : Nat) (s : State) : Host.Outcome State Fault Refusal :=
  match regionOf s.params off with
  | .id => .next (s.answer idWord)
  | .config => .next (s.answer (configWord s.params))
  | .ctrl => .next (s.answer s.ctrlWord)
  | .cmd => .next (s.answer s.L)
  | .status => .next (s.answer s.statusWord)
  | .clear => .next (s.answer 0)
  | .window i j => readWindow i j s
  | .unmapped => .next (s.accessError .read)

/-- An aligned 32-bit write (20_memory.md R48). -/
def hostWrite (off : Nat) (v : Word) (s : State) : State :=
  match regionOf s.params off with
  | .id => s.noAnswer
  | .config => s.noAnswer
  | .ctrl => (writeCtrl v s).noAnswer
  | .cmd => (writeCmd v s).noAnswer
  | .status => s.noAnswer
  | .clear => (writeClear v s).noAnswer
  | .window i j => (writeWindow i j v s).noAnswer
  | .unmapped => s.accessError .write

/-- The access is supported: 4 bytes, aligned, inside the aperture (20_memory.md R35, R48). -/
def Access.supported (a : Access) : Bool := a.size == 4 && a.off % 4 == 0 && decide (a.off < 0x4000)

/-- One Host access at an aperture offset (20_memory.md R48). -/
def hostAccess (a : Access) (s : State) : Host.Outcome State Fault Refusal :=
  if a.supported then
    match a.kind with
    | .read => hostRead a.off s
    | .write => .next (hostWrite a.off a.data s)
  else .next (s.accessError a.kind)

/-- One access at a system address: the block decodes only the offset from BASE in [0, 0x4000) (00_scope.md R8). An
access elsewhere does not reach it and changes nothing in it (20_memory.md R40; log 8). -/
def busAccess (kind : BusKind) (addr size : Nat) (data : Word) (s : State) : Host.Outcome State Fault Refusal :=
  if s.params.base ≤ addr ∧ addr < s.params.base + 0x4000 then
    hostAccess { kind := kind, off := addr - s.params.base, size := size, data := data } s
  else .next s

end Sys2Proof.Machine
end

