-- ==== Sys2Proof/Machine/Control.lean ====
section
/-! DEFINITION. The control command NOP (44_control.md R78). -/

namespace Sys2Proof.Machine

/-- NOP (44_control.md R78): it reads and writes nothing and completes like every command. -/
def execNop (s : State) : Host.Outcome State Fault Refusal :=
  s.command [] [] (.ok [] false)

end Sys2Proof.Machine
end

