-- ==== Sys2Proof/Machine/Euclid.lean ====
section
/-! DEFINITION. The extended Euclidean datapath (42_euclid.md). -/

namespace Sys2Proof.Machine

/-- The recursion of R69, cut off after `fuel` steps. -/
def xgcdFuel : Nat → Nat → Nat → Int × Int
  | 0, _, _ => (1, 0)
  | fuel + 1, a, b =>
    if b = 0 then (1, 0)
    else
      let r := xgcdFuel fuel b (a % b)
      (r.2, r.1 - ((a / b : Nat) : Int) * r.2)

/-- `xgcd(a, b)`, the Bézout pair of R69. The second argument halves at least every two steps, so twice its number of
bits is fuel enough (`xgcd_eq_fuel` in Laws/Arith.lean). -/
def xgcd (a b : Nat) : Int × Int := xgcdFuel (2 * (Nat.log2 b + 1) + 1) a b

/-- GCD's body (R70). `Nat.gcd` has gcd(a, 0) = a and gcd(0, 0) = 0. -/
def gcdResult (rd : RegIx) (a b : Nat) : CmdResult := .ok [(rd, Nat.gcd a b)] false

/-- XGCD's body (R71): both coefficients in W-bit two's complement. -/
def xgcdResult (rd re : RegIx) (W a b : Nat) : CmdResult :=
  .ok [(rd, twos W (xgcd a b).1), (re, twos W (xgcd a b).2)] false

/-- MODINV's body (R72). -/
def modinvResult (rd : RegIx) (a m : Nat) : CmdResult :=
  if m = 0 then .err .modulus
  else if Nat.gcd a m ≠ 1 then .err .domain
  else .ok [(rd, ((xgcd a m).1 % (m : Int)).toNat)] false

/-- GCD (42_euclid.md R70). -/
def execGcd (rd ra rb : RegIx) (s : State) : Host.Outcome State Fault Refusal :=
  s.command [rd, ra, rb] [ra, rb] (gcdResult rd (s.opA ra) (s.opB rb))

/-- XGCD (42_euclid.md R71). A term with RD = RE stands for no legal word and completes with ILLEGAL (R54). -/
def execXgcd (rd re ra rb : RegIx) (s : State) : Host.Outcome State Fault Refusal :=
  if rd = re then .next (s.complete (.err .illegal))
  else s.command [rd, re, ra, rb] [ra, rb] (xgcdResult rd re s.params.width (s.opA ra) (s.opB rb))

/-- MODINV (42_euclid.md R72). -/
def execModinv (rd ra rc : RegIx) (s : State) : Host.Outcome State Fault Refusal :=
  s.command [rd, ra, rc] [ra, rc] (modinvResult rd (s.opA ra) (s.opC rc))

end Sys2Proof.Machine
end

