-- ==== Sys2Proof/Machine/Montgomery.lean ====
section
/-! DEFINITION. The Montgomery multiplier and its four commands (40_montgomery.md). -/

namespace Sys2Proof.Machine

/-- `Rinv_N`: the inverse of R = 2^W modulo an odd N, in [0, N); 0 for N = 1 (00_scope.md R14). It is the Bézout
coefficient of R, reduced. -/
def montInv (W N : Nat) : Nat := ((xgcd (2 ^ W % N) N).1 % (N : Int)).toNat

/-- `mont_N(a, b)`, the Montgomery product of radix 2^W (00_scope.md R14). -/
def mont (W N a b : Nat) : Nat := a * b * montInv W N % N

/-- MONTMUL's body (R61). -/
def montmulResult (rd : RegIx) (W N a b : Nat) : CmdResult :=
  if N % 2 = 0 then .err .modulus
  else if N ≤ a ∨ N ≤ b then .err .range
  else .ok [(rd, mont W N a b)] false

/-- MONTR2's body (R62). -/
def montr2Result (rd : RegIx) (W N : Nat) : CmdResult :=
  if N % 2 = 0 then .err .modulus else .ok [(rd, 2 ^ (2 * W) % N)] false

/-- TOMONT's body (R63). -/
def tomontResult (rd : RegIx) (W N a : Nat) : CmdResult :=
  if N % 2 = 0 then .err .modulus else .ok [(rd, a * 2 ^ W % N)] false

/-- FROMMONT's body (R64). -/
def frommontResult (rd : RegIx) (W N a : Nat) : CmdResult :=
  if N % 2 = 0 then .err .modulus else .ok [(rd, a * montInv W N % N)] false

/-- MONTMUL (40_montgomery.md R61). -/
def execMontmul (rd ra rb rc : RegIx) (s : State) : Host.Outcome State Fault Refusal :=
  s.command [rd, ra, rb, rc] [ra, rb, rc] (montmulResult rd s.params.width (s.opC rc) (s.opA ra) (s.opB rb))

/-- MONTR2 (40_montgomery.md R62). -/
def execMontr2 (rd rc : RegIx) (s : State) : Host.Outcome State Fault Refusal :=
  s.command [rd, rc] [rc] (montr2Result rd s.params.width (s.opC rc))

/-- TOMONT (40_montgomery.md R63). -/
def execTomont (rd ra rc : RegIx) (s : State) : Host.Outcome State Fault Refusal :=
  s.command [rd, ra, rc] [ra, rc] (tomontResult rd s.params.width (s.opC rc) (s.opA ra))

/-- FROMMONT (40_montgomery.md R64). -/
def execFrommont (rd ra rc : RegIx) (s : State) : Host.Outcome State Fault Refusal :=
  s.command [rd, ra, rc] [ra, rc] (frommontResult rd s.params.width (s.opC rc) (s.opA ra))

end Sys2Proof.Machine
end

