-- ==== Sys2Proof/Machine/Modexp.lean ====
section
/-! DEFINITION. The modular exponentiation engine (41_modexp.md). -/

namespace Sys2Proof.Machine

/-- The left-to-right binary loop of R68 over the low `n` bits of `e`, most significant first, for a multiplier
`mul`, the base `g` and the accumulator `acc`. -/
def expLoop (mul : Nat → Nat → Nat) (g e : Nat) : Nat → Nat → Nat
  | 0, acc => acc
  | i + 1, acc =>
    let sq := mul acc acc
    expLoop mul g e i (if e.testBit i then mul sq g else sq)

/-- `(g ^ e) mod N` (R67), by square and multiply over the bits `e` has: a power with a W-bit exponent is too large to
write down. The value is R67's; the algorithm is not observable (R68). -/
def powMod (g e N : Nat) : Nat :=
  expLoop (fun u v => u * v % N) (g % N) e (Nat.log2 e + 1) (1 % N)

/-- `modexp_ref` of R68: on the Montgomery multiplier for odd N, with plain residues for even N. -/
def modexpRef (W g e N : Nat) : Nat :=
  if N % 2 = 0 then expLoop (fun u v => u * v % N) (g % N) e W (1 % N)
  else mont W N (expLoop (mont W N) (mont W N (g % N) (2 ^ (2 * W) % N)) e W (2 ^ W % N)) 1

/-- MODRED's body (R65). -/
def modredResult (rd : RegIx) (N a : Nat) : CmdResult :=
  if N = 0 then .err .modulus else .ok [(rd, a % N)] false

/-- MODMUL's body (R66). -/
def modmulResult (rd : RegIx) (N a b : Nat) : CmdResult :=
  if N = 0 then .err .modulus else .ok [(rd, a * b % N)] false

/-- MODEXP's body (R67). -/
def modexpResult (rd : RegIx) (N g e : Nat) : CmdResult :=
  if N = 0 then .err .modulus else .ok [(rd, powMod g e N)] false

/-- MODRED (41_modexp.md R65). -/
def execModred (rd ra rc : RegIx) (s : State) : Host.Outcome State Fault Refusal :=
  s.command [rd, ra, rc] [ra, rc] (modredResult rd (s.opC rc) (s.opA ra))

/-- MODMUL (41_modexp.md R66). -/
def execModmul (rd ra rb rc : RegIx) (s : State) : Host.Outcome State Fault Refusal :=
  s.command [rd, ra, rb, rc] [ra, rb, rc] (modmulResult rd (s.opC rc) (s.opA ra) (s.opB rb))

/-- MODEXP (41_modexp.md R67): RA is the base, RB the exponent, RC the modulus. -/
def execModexp (rd ra rb rc : RegIx) (s : State) : Host.Outcome State Fault Refusal :=
  s.command [rd, ra, rb, rc] [ra, rb, rc] (modexpResult rd (s.opC rc) (s.opA ra) (s.opB rb))

end Sys2Proof.Machine
end

