-- ==== Sys2Proof/Machine/Primality.lean ====
section
/-! DEFINITION. The Rabin-Miller witness check (43_primality.md). -/

namespace Sys2Proof.Machine

/-- The pair (s, d) with m = 2^s · d and d odd, for m > 0 with at most `fuel` bits (R74). -/
def splitTwos : Nat → Nat → Nat × Nat
  | 0, m => (0, m)
  | fuel + 1, m =>
    if m % 2 = 0 then
      let r := splitTwos fuel (m / 2)
      (r.1 + 1, r.2)
    else (0, m)

/-- The squaring loop of R75, `k` times at most. -/
def squareLoop (n : Nat) : Nat → Nat → Bool
  | 0, _ => false
  | k + 1, t =>
    let t' := t * t % n
    if t' = n - 1 then true
    else if t' = 1 then false
    else squareLoop n k t'

/-- One witness round for an odd n ≥ 5 and a witness in range (R75): does `w` pass? -/
def witnessPasses (w n : Nat) : Bool :=
  let sd := splitTwos (Nat.log2 (n - 1)) (n - 1)
  let t := powMod w sd.2 n
  if t = 1 ∨ t = n - 1 then true else squareLoop n (sd.1 - 1) t

/-- RMWIT's body (R75). An even candidate is a result, not an error. -/
def rmwitResult (w n : Nat) : CmdResult :=
  if n % 2 = 0 then .ok [] false
  else if n < 5 then .err .range
  else if w < 2 ∨ n - 2 < w then .err .range
  else .ok [] (witnessPasses w n)

/-- RMWIT (43_primality.md R75): RA is the witness, RC the candidate. It writes no register. -/
def execRmwit (ra rc : RegIx) (s : State) : Host.Outcome State Fault Refusal :=
  s.command [ra, rc] [ra, rc] (rmwitResult (s.opA ra) (s.opC rc))

end Sys2Proof.Machine
end

