-- ==== Sys2Proof/Machine/Dispatch.lean ====
section
/-! DEFINITION. exec: one arm per command, each a call of its meaning (44_control.md R80). -/

namespace Sys2Proof.Machine

def exec (i : Instr) (s : State) : Host.Outcome State Fault Refusal :=
  match i with
  | .nop => Sys2Proof.Machine.execNop s
  | .montmul rd ra rb rc => Sys2Proof.Machine.execMontmul rd ra rb rc s
  | .montr2 rd rc => Sys2Proof.Machine.execMontr2 rd rc s
  | .tomont rd ra rc => Sys2Proof.Machine.execTomont rd ra rc s
  | .frommont rd ra rc => Sys2Proof.Machine.execFrommont rd ra rc s
  | .modred rd ra rc => Sys2Proof.Machine.execModred rd ra rc s
  | .modmul rd ra rb rc => Sys2Proof.Machine.execModmul rd ra rb rc s
  | .modexp rd ra rb rc => Sys2Proof.Machine.execModexp rd ra rb rc s
  | .gcd rd ra rb => Sys2Proof.Machine.execGcd rd ra rb s
  | .xgcd rd re ra rb => Sys2Proof.Machine.execXgcd rd re ra rb s
  | .modinv rd ra rc => Sys2Proof.Machine.execModinv rd ra rc s
  | .rmwit ra rc => Sys2Proof.Machine.execRmwit ra rc s

end Sys2Proof.Machine
end

