-- ==== Sys2Proof/Machine/Engine.lean ====
section
/-! DEFINITION. The Engine's step and the order in which the agents move (00_scope.md R16, 20_memory.md R42). -/

namespace Sys2Proof.Machine

/-- The Engine's step: enabled exactly when BUSY = 1, it completes the latched command (44_control.md R81). An illegal
word completes with ILLEGAL (30_encoding.md R54). When BUSY = 0 there is no such step and nothing changes (log 5). -/
def engineStep (s : State) : Host.Outcome State Fault Refusal :=
  if s.busy then
    match decode s.L with
    | .ok i => exec i s
    | .error _ => .next (s.complete (.err .illegal))
  else .next s

/-- What one event does. -/
def runEvent (e : Event) (s : State) : Host.Outcome State Fault Refusal :=
  match e with
  | .access a => hostAccess a s
  | .bus kind addr size data => busAccess kind addr size data s
  | .engine => engineStep s
  | .rst => .next s.powerOnReset

/-- The next event of the total order happens. With no pending event the Engine moves: the completion fires at some
finite time (70_reset_and_hazards.md R111; log 4), and an idle block does nothing (R103; log 5). -/
def nextEvent (s : State) : Host.Outcome State Fault Refusal :=
  match s.events with
  | [] => engineStep s
  | e :: es => runEvent e { s with events := es }

end Sys2Proof.Machine
end

