-- ==== Sys2Proof/Machine/Step.lean ====
section
/-! DEFINITION. One step of the machine, and how a command word is put where the next step runs it. -/

namespace Sys2Proof.Machine

/-- One step: one event of the total order (20_memory.md R42). -/
def step (s : State) : Host.Outcome State Fault Refusal := nextEvent s

/-- The state in which the very next step runs the command word `w` (log 7): the word has just been accepted, as by a
CMD write to an idle block (44_control.md R79), and the Engine moves next, since no other event is pending. -/
def State.withFetchWord (s : State) (nbits w : Nat) : State :=
  { s.accept (tableWord nbits w) with events := [] }

end Sys2Proof.Machine
end

