-- ==== Sys2Proof/Machine/Assembler.lean ====
section
/-! DEFINITION. The assembler's notation for commands (30_encoding.md R57, R58). The block never sees it. -/

namespace Sys2Proof.Machine

/-- The name of register k, `r0` to `r15` (R57). -/
def regName (k : RegIx) : List Char :=
  if k.val < 10 then ['r', Char.ofNat (48 + k.val)] else ['r', '1', Char.ofNat (38 + k.val)]

/-- The register a name stands for (R57). -/
def parseReg (cs : List Char) : Option RegIx := (List.finRange 16).find? fun k => regName k == cs

/-- The mnemonic of a command (R57). -/
def mnemonicOf : Instr → List Char
  | .nop => ['N', 'O', 'P']
  | .montmul _ _ _ _ => ['M', 'O', 'N', 'T', 'M', 'U', 'L']
  | .montr2 _ _ => ['M', 'O', 'N', 'T', 'R', '2']
  | .tomont _ _ _ => ['T', 'O', 'M', 'O', 'N', 'T']
  | .frommont _ _ _ => ['F', 'R', 'O', 'M', 'M', 'O', 'N', 'T']
  | .modred _ _ _ => ['M', 'O', 'D', 'R', 'E', 'D']
  | .modmul _ _ _ _ => ['M', 'O', 'D', 'M', 'U', 'L']
  | .modexp _ _ _ _ => ['M', 'O', 'D', 'E', 'X', 'P']
  | .gcd _ _ _ => ['G', 'C', 'D']
  | .xgcd _ _ _ _ => ['X', 'G', 'C', 'D']
  | .modinv _ _ _ => ['M', 'O', 'D', 'I', 'N', 'V']
  | .rmwit _ _ => ['R', 'M', 'W', 'I', 'T']

/-- `MONTSQR rd, ra, rc` (R58). -/
def montsqr (rd ra rc : RegIx) : Instr := .montmul rd ra ra rc

/-- `MODSQR rd, ra, rc` (R58). -/
def modsqr (rd ra rc : RegIx) : Instr := .modmul rd ra ra rc

/-- The command of a mnemonic in capitals and its registers, the pseudo-instructions of R58 among them. -/
def assemble (m : List Char) (rs : List RegIx) : Option Instr :=
  match rs with
  | [] => if m = mnemonicOf .nop then some .nop else none
  | [a, b] =>
    if m = mnemonicOf (.montr2 a b) then some (.montr2 a b)
    else if m = mnemonicOf (.rmwit a b) then some (.rmwit a b)
    else none
  | [a, b, c] =>
    if m = mnemonicOf (.tomont a b c) then some (.tomont a b c)
    else if m = mnemonicOf (.frommont a b c) then some (.frommont a b c)
    else if m = mnemonicOf (.modred a b c) then some (.modred a b c)
    else if m = mnemonicOf (.gcd a b c) then some (.gcd a b c)
    else if m = mnemonicOf (.modinv a b c) then some (.modinv a b c)
    else if m = ['M', 'O', 'N', 'T', 'S', 'Q', 'R'] then some (montsqr a b c)
    else if m = ['M', 'O', 'D', 'S', 'Q', 'R'] then some (modsqr a b c)
    else none
  | [a, b, c, d] =>
    if m = mnemonicOf (.montmul a b c d) then some (.montmul a b c d)
    else if m = mnemonicOf (.modmul a b c d) then some (.modmul a b c d)
    else if m = mnemonicOf (.modexp a b c d) then some (.modexp a b c d)
    else if m = mnemonicOf (.xgcd a b c d) then some (.xgcd a b c d)
    else none
  | _ => none

/-- The text without blanks before and after it. DESIGN CHOICE, log 17: blanks are spaces and tabs. -/
def isBlank (c : Char) : Bool := c == ' ' || c == '\t'

def trimBlanks (cs : List Char) : List Char :=
  ((cs.dropWhile isBlank).reverse.dropWhile isBlank).reverse

/-- The parts of a text between its commas. -/
def splitCommas : List Char → List (List Char)
  | [] => [[]]
  | c :: cs =>
    if c = ',' then [] :: splitCommas cs
    else match splitCommas cs with
      | [] => [[c]]
      | p :: ps => (c :: p) :: ps

/-- The command of one line: a mnemonic in any case, then the registers separated by commas; `;` starts a comment
(R57). -/
def parseLine (line : List Char) : Option Instr :=
  let code := trimBlanks (line.takeWhile fun c => c != ';')
  let m := (code.takeWhile fun c => !isBlank c).map Char.toUpper
  let rest := trimBlanks (code.dropWhile fun c => !isBlank c)
  if rest = [] then assemble m []
  else ((splitCommas rest).map trimBlanks).mapM parseReg >>= assemble m

/-- The registers of a command in the order the line names them (R57). -/
def operandText : List RegIx → List Char
  | [] => []
  | [k] => ' ' :: regName k
  | k :: ks => ' ' :: (regName k ++ ',' :: operandText ks)

/-- The line of a command (R57). -/
def printLine (i : Instr) : List Char := mnemonicOf i ++ operandText i.usedRegs

end Sys2Proof.Machine
end

