-- ==== Sys2Proof/Machine/HostProcs.lean ====
section
/-! DEFINITION. The Host's side: its operations as lists of bus accesses (30_encoding.md R59), and the Host procedures
the spec writes over the commands (42_euclid.md R73, 43_primality.md R76). None of them is a rule of the block
(log 21). -/

namespace Sys2Proof.Machine

/-! ## Host operations (R59) -/

/-- `WR off, v`: one MemWrite. -/
def hostWR (off : Nat) (v : Word) : Event := .access { kind := .write, off := off, size := 4, data := v }

/-- `RD off`: one MemRead. -/
def hostRD (off : Nat) : Event := .access { kind := .read, off := off, size := 4, data := 0 }

/-- `LOAD rk, v` on instance `p`: W/32 writes, word 0 first. -/
def hostLOAD (p : Params) (k : RegIx) (v : Nat) : List Event :=
  (List.range p.wwords).map fun j => hostWR (windowOffset k.val j) (BitVec.ofNat 32 (v / 2 ^ (32 * j)))

/-- `READ rk` on instance `p`: W/32 reads, word 0 first. -/
def hostREAD (p : Params) (k : RegIx) : List Event :=
  (List.range p.wwords).map fun j => hostRD (windowOffset k.val j)

/-- `ISSUE cmd`. -/
def hostISSUE (i : Instr) : List Event := [hostWR 0x000C (encode i)]

/-- `WAIT`, in the order of events in which `n` polls of STATUS come before the completion and one after it. -/
def hostWAIT (n : Nat) : List Event := List.replicate n (hostRD 0x0010) ++ [.engine, hostRD 0x0010]

/-- `EXEC cmd`: ISSUE, then WAIT with `n` polls before the completion. -/
def hostEXEC (i : Instr) (n : Nat) : List Event := hostISSUE i ++ hostWAIT n

/-! ## Signed Euclid on the Host (R73) -/

/-- sign(a): −1 for a negative value and +1 otherwise. -/
def hostSign (a : Int) : Int := if a < 0 then -1 else 1

/-- `extendedEuclid(a, b)` for all integers: XGCD on the magnitudes, then the signs. -/
def hostExtendedEuclid (a b : Int) : Int × Int :=
  let p := xgcd a.natAbs b.natAbs
  (hostSign a * p.1, hostSign b * p.2)

/-- `modInverse(a, m)` for an integer `a`: reduce a mod m on the Host, then MODINV into register `rd`. With m = 0
there is nothing to reduce by, and MODINV reports MODULUS. -/
def hostModInverse (rd : RegIx) (a : Int) (m : Nat) : CmdResult := modinvResult rd (a % (m : Int)).toNat m

/-! ## isProbablePrime on the Host (R76) -/

/-- The certainty loop: one RMWIT round for each witness, the first error or failing witness ends it. -/
def witnessRounds (n : Nat) : List Nat → Except ErrCode Bool
  | [] => .ok true
  | w :: ws =>
    match rmwitResult w n with
    | .err c => .error c
    | .ok _ false => .ok false
    | .ok _ true => witnessRounds n ws

/-- `isProbablePrime(n, c)` with the c witnesses the Host drew. -/
def hostIsProbablePrime (n : Nat) (ws : List Nat) : Except ErrCode Bool :=
  if n % 2 = 0 then .ok false
  else if n = 1 then .ok false
  else if n = 3 then .ok true
  else witnessRounds n ws

end Sys2Proof.Machine
end

