-- ==== Sys2Proof/Safety.lean ====
section
/-! DEFINITION. The vocabulary of claims: what a good state is, what a run is, when a command runs its body, and what a
completion changes and leaves alone. -/

namespace Sys2Proof.Machine

/-! ## Good states -/

/-- The register file has the instance's shape: NREG registers of W/32 words (10_state.md R19, R33). -/
abbrev State.RegsWf (s : State) : Prop :=
  s.x.length = s.params.nreg ∧ ∀ r ∈ s.x, r.length = s.params.wwords

/-- The invariants of STATUS (10_state.md R27); ERR = 1 exactly when ERRCODE ≠ 0 is the definition of `State.err`. -/
abbrev State.StatusOk (s : State) : Prop :=
  (s.busy = true → s.done = false ∧ s.result = false ∧ s.errcode = .none)
    ∧ (s.result = true → s.errcode = .none ∧ opOf s.L = 0x0B#8)

/-- A good state: a legal instance, a register file of its shape, and R27. -/
abbrev State.Inv (s : State) : Prop := s.params.Legal ∧ s.RegsWf ∧ s.StatusOk

/-! ## Runs -/

/-- `n` steps lead from the first state to the second, none of them stopping. -/
def RunsTo : Nat → State → State → Prop
  | 0, s, t => t = s
  | n + 1, s, t => ∃ u, step s = .next u ∧ RunsTo n u t

/-! ## When a command runs its body -/

/-- The command is legal (R54) and its registers exist (R55). -/
abbrev State.PassesChecks (s : State) (i : Instr) : Prop :=
  i.wellFormed = true ∧ ∀ k ∈ i.usedRegs, k.val < s.params.nreg

/-- The command runs its body: it passes the common checks and its sources may be read (R32, R80): they are written, or
the instance reads unwritten words as free values (log 2). -/
abbrev State.Runs (s : State) (i : Instr) : Prop := s.PassesChecks i ∧ s.readable i.sources = true

/-! ## The reads that R32 calls a fault of the model (10_state.md R32, 44_control.md R80; log 2) -/

/-- The command passes the common checks and a source register has a word that is unwritten since RST. -/
abbrev State.ReadsUnwrittenSource (s : State) (i : Instr) : Prop :=
  s.PassesChecks i ∧ ∃ k ∈ i.sources, ∃ j, j < s.params.wwords ∧ s.word k.val j = none

/-- The next event is a Host read of an operand window word that is unwritten since RST. -/
def State.ReadsUnwrittenWord (s : State) : Prop :=
  ∃ i j v es, i < s.params.nreg ∧ j < s.params.wwords ∧ s.word i j = none
    ∧ (s.events = .access { kind := .read, off := windowOffset i j, size := 4, data := v } :: es
      ∨ s.events = .bus .read (s.params.base + windowOffset i j) 4 v :: es)

/-- The next step is a completion of the latched command. -/
abbrev State.CompletesNext (s : State) (i : Instr) : Prop :=
  s.busy = true ∧ decode s.L = .ok i ∧ (s.events = [] ∨ ∃ es, s.events = .engine :: es)

/-- The next step makes a read that R32 calls a fault of the model. -/
def State.ReadsUnwritten (s : State) : Prop :=
  s.ReadsUnwrittenWord ∨ ∃ i, s.CompletesNext i ∧ s.ReadsUnwrittenSource i

/-! ## What a completion does (44_control.md R81) -/

/-- Every word of every register outside `ks` is as before. -/
def KeepsOtherRegs (s t : State) (ks : List RegIx) : Prop :=
  ∀ i j, (∀ k ∈ ks, i ≠ k.val) → t.word i j = s.word i j

/-- BUSY is cleared, DONE is set, RESULT and ERRCODE are given, and everything but the registers (and the count of free
values) is as before. -/
def Completes (s t : State) (b : Bool) (c : ErrCode) : Prop :=
  t.busy = false ∧ t.done = true ∧ t.result = b ∧ t.errcode = c
    ∧ t.params = s.params ∧ t.ie = s.ie ∧ t.L = s.L ∧ t.overrun = s.overrun ∧ t.accerr = s.accerr
    ∧ t.reply = s.reply ∧ t.events = s.events

/-- The command completed without error and RESULT 0: register `k`, whole, reads as `v` through any operand field,
and every other register is as before. -/
def CompletesWith (s t : State) (k : RegIx) (v : Nat) : Prop :=
  Completes s t false .none ∧ t.written k.val = true ∧ (∀ f, t.operand f k = v) ∧ KeepsOtherRegs s t [k]

/-- The command completed with RESULT `b` and no error and wrote no register. -/
def CompletesWithFlag (s t : State) (b : Bool) : Prop := Completes s t b .none ∧ t.x = s.x

/-- The command completed with an error and wrote no register. -/
def Fails (s t : State) (c : ErrCode) : Prop := Completes s t false c ∧ t.x = s.x

/-- `r` is `Rinv_N` for R = 2^W: the integer in [0, N) with R·r ≡ 1 (mod N) (00_scope.md R14). -/
def IsRinv (W N r : Nat) : Prop := r < N ∧ 2 ^ W * r % N = 1 % N

end Sys2Proof.Machine
end

