-- ==== Sys2Proof/Certificates/Slice0/Obligations.lean ====
section
/-! DEFINITION. The statements for the provers. `W` below is `s.params.width`; operands are read through the fields that
name them (`State.opA`, `State.opB`, `State.opC`), which are the stored values of written registers and, in an instance
that reads unwritten words so, free values where a word is unwritten (logs 2 and 3). A statement about a command that
`Runs` covers every operand in both kinds of instance; UnwrittenSourceFaults says when a command does not run. -/

open Sys2Proof Sys2Proof.Machine

/-! ## Encoding -/

/-- Decoding an encoded legal command gives it back, whatever its registers (30_encoding.md R50, R51, R54). -/
def Obligations.DecodeEncodeReturnsTheCommand : Prop :=
  ∀ i : Instr, i.wellFormed = true → decode (encode i) = .ok i ∧ decodeTableWord 32 (encode i).toNat = some i

/-- A word that decodes is the encoding of what it decodes to, and that command is legal: each word has one meaning.
-/
def Obligations.EncodeDecodeReturnsTheWord : Prop :=
  ∀ (c : Word) (i : Instr), decode c = .ok i → encode i = c ∧ i.wellFormed = true

/-- R53: the legal words are those that select a row of the opcode map, XGCD's with RD ≠ RE; the row is the one of the
word's opcode, so at most one row matches. -/
def Obligations.DecoderAgreesWithOpcodeMap : Prop :=
  (∀ c : Word, (∃ i, decode c = .ok i) ↔
    (∃ r ∈ opcodeMap, r.selects c = true) ∧ (opOf c = 0x09#8 → rdOf c ≠ reOf c))
  ∧ (∀ r ∈ opcodeMap, ∀ c : Word, r.selects c = true → opOf c = r.op)
  ∧ (∀ r ∈ opcodeMap, ∀ r' ∈ opcodeMap, ∀ c : Word, r.selects c = true → r'.selects c = true → r = r')
  ∧ (∀ (c : Word) (i : Instr), decode c = .ok i → opOf c = i.opcode)
  ∧ encode (.modexp 3 0 1 2) = 0x02100307#32

/-- R54: a word is illegal exactly when one of the four conditions holds; it is accepted like any other, and its
completion reports ILLEGAL and writes no register. The model's own choices here: log 4. -/
def Obligations.IllegalWordsCompleteWithIllegal : Prop :=
  (∀ c : Word, (∃ e, decode c = .error e) ↔
    (0x0C ≤ (opOf c).toNat ∨ rsvOf c ≠ 0
      ∨ ((fieldUse (opOf c).toNat).rd = false ∧ rdOf c ≠ 0) ∨ ((fieldUse (opOf c).toNat).re = false ∧ reOf c ≠ 0)
      ∨ ((fieldUse (opOf c).toNat).ra = false ∧ raOf c ≠ 0) ∨ ((fieldUse (opOf c).toNat).rb = false ∧ rbOf c ≠ 0)
      ∨ ((fieldUse (opOf c).toNat).rc = false ∧ rcOf c ≠ 0)
      ∨ (opOf c = 0x09#8 ∧ rdOf c = reOf c)))
  ∧ (∀ (s : State) (c : Word) (es : List Event), s.busy = false → s.events = hostWR 0x000C c :: .engine :: es →
      (∃ e, decode c = .error e) →
      ∃ u t, step s = .next u ∧ u.busy = true ∧ u.L = c ∧ step u = .next t ∧ t.L = c ∧ t.events = es
        ∧ t.busy = false ∧ t.done = true ∧ t.result = false ∧ t.errcode = .illegal ∧ t.x = s.x)

/-- Words written out from R53's patterns decode to the commands they stand for. -/
def Obligations.SampleWordsDecode : Prop :=
  decode 0x00000000#32 = .ok .nop
  ∧ decode 0b0000_0010_0001_0000_0000_0011_00000111#32 = .ok (.modexp 3 0 1 2)
  ∧ decode 0b0000_0000_0001_0000_0100_0011_00001001#32 = .ok (.xgcd 3 4 0 1)
  ∧ decode 0b0000_0010_0000_0000_0000_0000_00001011#32 = .ok (.rmwit 0 2)
  ∧ decode 0b0000_0000_0101_0100_0000_0110_00000001#32 = .ok (.montmul 6 4 5 0)
  ∧ decode 0x0000000C#32 = .error .reservedOpcode

/-- R57, R58: the line of a command assembles to it, and a pseudo-instruction to its expansion. The model's own
choices of text: log 17. -/
def Obligations.AssemblerRoundTrip : Prop :=
  (∀ i : Instr, parseLine (printLine i) = some i)
  ∧ (∀ rd ra rc : RegIx,
      parseLine (['M', 'O', 'N', 'T', 'S', 'Q', 'R'] ++ operandText [rd, ra, rc]) = some (.montmul rd ra ra rc)
      ∧ parseLine (['M', 'O', 'D', 'S', 'Q', 'R'] ++ operandText [rd, ra, rc]) = some (.modmul rd ra ra rc))

/-! ## The step -/

/-- A step of a busy block with no other event first is `exec` of the latched command, and of ILLEGAL where the latch
holds no legal word; `withFetchWord` puts a word in that place. The model's own choices here: logs 4 and 7. -/
def Obligations.StepCompletesTheLatchedCommand : Prop :=
  (∀ (s : State) (i : Instr), s.busy = true → decode s.L = .ok i →
    (s.events = [] → step s = exec i s)
    ∧ (∀ es, s.events = .engine :: es → step s = exec i { s with events := es }))
  ∧ (∀ (s : State) (e : DecodeError), s.busy = true → decode s.L = .error e → s.events = [] →
      ∃ t, step s = .next t ∧ Fails s t .illegal)
  ∧ (∀ (s : State) (i : Instr) (w : Nat), decodeTableWord 32 w = some i →
      step (s.withFetchWord 32 w) = exec i (s.withFetchWord 32 w))

/-- R16, R42: the pending events happen one a step, in their order; an idle block with none pending does nothing. The
model's own choices here: log 4, and log 5 for the idle block. -/
def Obligations.StepTakesTheFirstPendingEvent : Prop :=
  (∀ (s : State) (a : Access) (es : List Event), s.events = .access a :: es →
    step s = hostAccess a { s with events := es })
  ∧ (∀ (s : State) (es : List Event), s.events = .rst :: es →
      step s = .next ({ s with events := es } : State).powerOnReset)
  ∧ (∀ s : State, s.events = [] → s.busy = false → step s = .next s)

/-! ## The commands -/

/-- R78: NOP completes in every state, reads nothing and writes nothing but RESULT 0, ERRCODE 0 and DONE. The model's
own choices here: log 3. -/
def Obligations.NopOnlyCompletes : Prop :=
  ∀ s : State, ∃ t, exec .nop s = .next t ∧ CompletesWithFlag s t false ∧ t.freeCount = s.freeCount

/-- R61: MODULUS for an even N, then RANGE for an input not below N, else (a · b · Rinv_N) mod N. -/
def Obligations.MontmulGivesTheMontgomeryProduct : Prop :=
  ∀ (s : State) (rd ra rb rc : RegIx), s.RegsWf → s.Runs (.montmul rd ra rb rc) →
    ∃ t, exec (.montmul rd ra rb rc) s = .next t
      ∧ (s.opC rc % 2 = 0 → Fails s t .modulus)
      ∧ (s.opC rc % 2 = 1 → (s.opC rc ≤ s.opA ra ∨ s.opC rc ≤ s.opB rb) → Fails s t .range)
      ∧ (s.opC rc % 2 = 1 → s.opA ra < s.opC rc → s.opB rb < s.opC rc →
          ∃ r, IsRinv s.params.width (s.opC rc) r
            ∧ CompletesWith s t rd (s.opA ra * s.opB rb * r % s.opC rc))

/-- R62: MODULUS for an even N, else 2^(2W) mod N. -/
def Obligations.Montr2GivesRSquared : Prop :=
  ∀ (s : State) (rd rc : RegIx), s.RegsWf → s.Runs (.montr2 rd rc) →
    ∃ t, exec (.montr2 rd rc) s = .next t
      ∧ (s.opC rc % 2 = 0 → Fails s t .modulus)
      ∧ (s.opC rc % 2 = 1 → CompletesWith s t rd (2 ^ (2 * s.params.width) % s.opC rc))

/-- R63: MODULUS for an even N, else (a · 2^W) mod N for every a. -/
def Obligations.TomontGivesMontgomeryForm : Prop :=
  ∀ (s : State) (rd ra rc : RegIx), s.RegsWf → s.Runs (.tomont rd ra rc) →
    ∃ t, exec (.tomont rd ra rc) s = .next t
      ∧ (s.opC rc % 2 = 0 → Fails s t .modulus)
      ∧ (s.opC rc % 2 = 1 → CompletesWith s t rd (s.opA ra * 2 ^ s.params.width % s.opC rc))

/-- R64: MODULUS for an even N, else (a · Rinv_N) mod N for every a. -/
def Obligations.FrommontLeavesMontgomeryForm : Prop :=
  ∀ (s : State) (rd ra rc : RegIx), s.RegsWf → s.Runs (.frommont rd ra rc) →
    ∃ t, exec (.frommont rd ra rc) s = .next t
      ∧ (s.opC rc % 2 = 0 → Fails s t .modulus)
      ∧ (s.opC rc % 2 = 1 → ∃ r, IsRinv s.params.width (s.opC rc) r
          ∧ CompletesWith s t rd (s.opA ra * r % s.opC rc))

/-- R65: MODULUS for N = 0, else a mod N. -/
def Obligations.ModredReduces : Prop :=
  ∀ (s : State) (rd ra rc : RegIx), s.RegsWf → s.Runs (.modred rd ra rc) →
    ∃ t, exec (.modred rd ra rc) s = .next t
      ∧ (s.opC rc = 0 → Fails s t .modulus)
      ∧ (s.opC rc ≠ 0 → CompletesWith s t rd (s.opA ra % s.opC rc))

/-- R66: MODULUS for N = 0, else (a · b) mod N of the exact product. -/
def Obligations.ModmulMultiplies : Prop :=
  ∀ (s : State) (rd ra rb rc : RegIx), s.RegsWf → s.Runs (.modmul rd ra rb rc) →
    ∃ t, exec (.modmul rd ra rb rc) s = .next t
      ∧ (s.opC rc = 0 → Fails s t .modulus)
      ∧ (s.opC rc ≠ 0 → CompletesWith s t rd (s.opA ra * s.opB rb % s.opC rc))

/-- R67: MODULUS for N = 0, else (g ^ e) mod N, for every base and every exponent, with 0 ^ 0 = 1. -/
def Obligations.ModexpRaises : Prop :=
  ∀ (s : State) (rd ra rb rc : RegIx), s.RegsWf → s.Runs (.modexp rd ra rb rc) →
    ∃ t, exec (.modexp rd ra rb rc) s = .next t
      ∧ (s.opC rc = 0 → Fails s t .modulus)
      ∧ (s.opC rc ≠ 0 → CompletesWith s t rd (s.opA ra ^ s.opB rb % s.opC rc))

/-- R70: the greatest common divisor, with no error of its own. -/
def Obligations.GcdGivesTheGreatestCommonDivisor : Prop :=
  ∀ (s : State) (rd ra rb : RegIx), s.RegsWf → s.Runs (.gcd rd ra rb) →
    ∃ t g, exec (.gcd rd ra rb) s = .next t ∧ CompletesWith s t rd g
      ∧ g ∣ s.opA ra ∧ g ∣ s.opB rb ∧ (∀ d, d ∣ s.opA ra → d ∣ s.opB rb → d ∣ g)
      ∧ (s.opB rb = 0 → g = s.opA ra) ∧ (s.opA ra = 0 → g = s.opB rb)

/-- R71: both Bézout coefficients of R69 in W-bit two's complement, which read back as signed are exactly the pair; a
term with RD = RE reports ILLEGAL. The model's own choices here: log 11. -/
def Obligations.XgcdGivesTheBezoutPair : Prop :=
  (∀ (s : State) (rd re ra rb : RegIx), s.params.Legal → s.RegsWf → s.Runs (.xgcd rd re ra rb) →
    ∃ t, exec (.xgcd rd re ra rb) s = .next t ∧ Completes s t false .none
      ∧ t.written rd.val = true ∧ t.written re.val = true ∧ KeepsOtherRegs s t [rd, re]
      ∧ (∀ f, (t.operand f rd : Int) = (xgcd (s.opA ra) (s.opB rb)).1 % 2 ^ s.params.width
          ∧ (t.operand f re : Int) = (xgcd (s.opA ra) (s.opB rb)).2 % 2 ^ s.params.width
          ∧ sext s.params.width (t.operand f rd) = (xgcd (s.opA ra) (s.opB rb)).1
          ∧ sext s.params.width (t.operand f re) = (xgcd (s.opA ra) (s.opB rb)).2))
  ∧ (∀ (s : State) (rd ra rb : RegIx), ∃ t, exec (.xgcd rd rd ra rb) s = .next t ∧ Fails s t .illegal)

/-- R72: MODULUS for m = 0, DOMAIN when gcd(a, m) ≠ 1, else bx mod m, which is the inverse of a in [0, m). -/
def Obligations.ModinvInverts : Prop :=
  ∀ (s : State) (rd ra rc : RegIx), s.RegsWf → s.Runs (.modinv rd ra rc) →
    ∃ t, exec (.modinv rd ra rc) s = .next t
      ∧ (s.opC rc = 0 → Fails s t .modulus)
      ∧ (s.opC rc ≠ 0 → Nat.gcd (s.opA ra) (s.opC rc) ≠ 1 → Fails s t .domain)
      ∧ (s.opC rc ≠ 0 → Nat.gcd (s.opA ra) (s.opC rc) = 1 →
          ∃ v : Nat, CompletesWith s t rd v ∧ v < s.opC rc ∧ s.opA ra * v % s.opC rc = 1 % s.opC rc
            ∧ (v : Int) = (xgcd (s.opA ra) (s.opC rc)).1 % (s.opC rc : Int))

/-- R75: an even n is RESULT 0 and no error; RANGE for an odd n below 5 and for a witness outside [2, n − 2]; else,
with n − 1 = 2^e · d and d odd (R74), RESULT 1 exactly when w^d is 1 or some w^(2^r · d) with r < e is n − 1, modulo
n. -/
def Obligations.RmwitRunsOneWitnessRound : Prop :=
  ∀ (s : State) (ra rc : RegIx), s.Runs (.rmwit ra rc) →
    ∃ t, exec (.rmwit ra rc) s = .next t
      ∧ (s.opC rc % 2 = 0 → CompletesWithFlag s t false)
      ∧ (s.opC rc % 2 = 1 → s.opC rc < 5 → Fails s t .range)
      ∧ (s.opC rc % 2 = 1 → 5 ≤ s.opC rc → (s.opA ra < 2 ∨ s.opC rc - 2 < s.opA ra) → Fails s t .range)
      ∧ (s.opC rc % 2 = 1 → 5 ≤ s.opC rc → 2 ≤ s.opA ra → s.opA ra ≤ s.opC rc - 2 →
          ∃ e d, s.opC rc - 1 = 2 ^ e * d ∧ d % 2 = 1 ∧ CompletesWithFlag s t t.result
            ∧ (t.result = true ↔ s.opA ra ^ d % s.opC rc = 1
                ∨ ∃ r, r < e ∧ s.opA ra ^ (2 ^ r * d) % s.opC rc = s.opC rc - 1))

/-! ## The arithmetic behind the commands -/

/-- R14, with R = 2^W: for an odd N below R the model's Rinv_N is the one integer in [0, N) with R · Rinv_N ≡ 1 (mod
N), which exists because gcd(R, N) = 1; it is 0 for N = 1; and mont_N(a, b) is (a · b · Rinv_N) mod N. -/
def Obligations.RinvIsTheUniqueInverse : Prop :=
  (∀ W N : Nat, N % 2 = 1 → N < 2 ^ W →
    Nat.gcd (2 ^ W) N = 1 ∧ IsRinv W N (montInv W N) ∧ ∀ r, IsRinv W N r → r = montInv W N)
  ∧ (∀ W, montInv W 1 = 0)
  ∧ ∀ W N a b : Nat, mont W N a b = a * b * montInv W N % N

/-- R63, R64, R66: TOMONT(a) = MONTMUL(a mod N, MONTR2); FROMMONT undoes TOMONT; for a < N, FROMMONT(a) = MONTMUL(a,
1); and MODMUL is the multiplier between the two conversions. -/
def Obligations.MontgomeryFormIdentities : Prop :=
  ∀ W N a b : Nat, N % 2 = 1 → N < 2 ^ W →
    mont W N (a % N) (2 ^ (2 * W) % N) = a * 2 ^ W % N
    ∧ (a * 2 ^ W % N) * montInv W N % N = a % N
    ∧ mont W N a 1 = a * montInv W N % N
    ∧ mont W N (a * 2 ^ W % N) (b * 2 ^ W % N) * montInv W N % N = a * b % N

/-- R64 on the machine: after TOMONT into a register other than the modulus, FROMMONT from it gives a mod N. The
modulus register must be written, for a free value may differ between two commands (log 3). -/
def Obligations.FrommontUndoesTomont : Prop :=
  ∀ (s t u : State) (rd rd' ra rc : RegIx), s.RegsWf → s.Runs (.tomont rd ra rc) → rd' < s.params.nreg →
    rd ≠ rc → s.written rc.val = true → s.opC rc % 2 = 1 →
    exec (.tomont rd ra rc) s = .next t → exec (.frommont rd' rd rc) t = .next u →
    CompletesWith t u rd' (s.opA ra % s.opC rc)

/-- R68: the reference algorithm, on the Montgomery multiplier for odd N and plain residues for even N, gives (g^e)
mod N for every modulus N ≥ 1 below 2^W and exponent below 2^W. -/
def Obligations.ReferenceExponentiationIsThePower : Prop :=
  ∀ W g e N : Nat, 1 ≤ N → N < 2 ^ W → e < 2 ^ W → modexpRef W g e N = g ^ e % N

/-- R69: `xgcd` is the pair of the recursion with base case (1, 0); the recursion's second argument strictly
decreases; a · bx + b · by = gcd(a, b); and for operands below 2^W, W ≥ 2 (W = 1 is no legal width), both coefficients
are at most 2^(W−1) − 1 in magnitude. -/
def Obligations.XgcdIsTheBezoutPairOfTheRecursion : Prop :=
  (∀ a, xgcd a 0 = (1, 0))
  ∧ (∀ a b : Nat, b ≠ 0 → a % b < b
      ∧ xgcd a b = ((xgcd b (a % b)).2, (xgcd b (a % b)).1 - ((a / b : Nat) : Int) * (xgcd b (a % b)).2))
  ∧ (∀ a b : Nat, (a : Int) * (xgcd a b).1 + (b : Int) * (xgcd a b).2 = (Nat.gcd a b : Int))
  ∧ (∀ W a b : Nat, 2 ≤ W → a < 2 ^ W → b < 2 ^ W →
      (xgcd a b).1.natAbs ≤ 2 ^ (W - 1) - 1 ∧ (xgcd a b).2.natAbs ≤ 2 ^ (W - 1) - 1)

/-- R77: a prime n ≥ 5 passes every witness in [2, n − 2], on the machine. -/
def Obligations.PrimesPassEveryWitness : Prop :=
  ∀ (s : State) (ra rc : RegIx), s.Runs (.rmwit ra rc) → (s.opC rc).Prime → 5 ≤ s.opC rc →
    2 ≤ s.opA ra → s.opA ra ≤ s.opC rc - 2 →
    ∃ t, exec (.rmwit ra rc) s = .next t ∧ CompletesWithFlag s t true

/-- R77: the strong liars of 221 are exactly 21, 47, 174 and 200. -/
def Obligations.StrongLiarsOf221 : Prop :=
  ∀ w : Nat, 2 ≤ w → w ≤ 219 → (rmwitResult w 221 = .ok [] true ↔ w ∈ [21, 47, 174, 200])

/-- R73: the Host's signed Euclid over XGCD satisfies a · x + b · y = gcd(|a|, |b|) for all integers. Host software
beside the machine: log 21. -/
def Obligations.HostSignedEuclidIsBezout : Prop :=
  ∀ a b : Int, a * (hostExtendedEuclid a b).1 + b * (hostExtendedEuclid a b).2 = (Int.gcd a b : Int)

/-- R76, R77: the Host procedure accepts every odd prime p ≥ 5, whatever witnesses in range it drew, accepts 3 for every
certainty, and rejects 1 and every even number. Host software beside the machine: log 21. -/
def Obligations.HostPrimalityAcceptsOddPrimes : Prop :=
  (∀ (p : Nat) (ws : List Nat), p.Prime → p % 2 = 1 → (∀ w ∈ ws, 2 ≤ w ∧ w ≤ p - 2) →
    hostIsProbablePrime p ws = .ok true)
  ∧ (∀ ws : List Nat, hostIsProbablePrime 3 ws = .ok true)
  ∧ (∀ (n : Nat) (ws : List Nat), n % 2 = 0 ∨ n = 1 → hostIsProbablePrime n ws = .ok false)

/-! ## Errors and frames of every command -/

/-- R55, R87: a legal command with a used register at or above NREG reports BADREG before anything else, and writes no
register; with NREG = 16 this cannot happen. -/
def Obligations.BadRegisterIsReported : Prop :=
  (∀ (s : State) (i : Instr), i.wellFormed = true → (∃ k ∈ i.usedRegs, s.params.nreg ≤ k.val) →
    ∃ t, exec i s = .next t ∧ Fails s t .badreg)
  ∧ ErrCode.badreg.bits = 2#4
  ∧ (∀ (s t : State) (i : Instr), s.params.nreg = 16 → exec i s = .next t → t.errcode ≠ .badreg)

/-- R32, R80: a command that passes the common checks and has a source register with an unwritten word is a fault of
the model; every other command goes on, in every state. In an instance that reads unwritten words as free values such a
command goes on too, and is counted. The model's own choices here: logs 2, 3 and 19. -/
def Obligations.UnwrittenSourceFaults : Prop :=
  ∀ (s : State) (i : Instr),
    (s.ReadsUnwrittenSource i → s.params.unwritten = .fault → exec i s = .fault .unwrittenOperand)
    ∧ (s.ReadsUnwrittenSource i → s.params.unwritten = .free →
        ∃ t, exec i s = .next t ∧ t.freeCount = s.freeCount + 1)
    ∧ (¬s.ReadsUnwrittenSource i → ∃ t, exec i s = .next t ∧ t.freeCount = s.freeCount)

/-- R85, R86, R92: each command reports only the codes the table names for it, and a command that reports one writes
no register and leaves RESULT 0. -/
def Obligations.ErrorCodesByCommand : Prop :=
  ∀ (i : Instr) (s t : State), exec i s = .next t →
    (t.errcode ≠ .none → t.x = s.x ∧ t.result = false)
    ∧ t.errcode ≠ .aborted
    ∧ (t.errcode = .illegal → i.wellFormed = false)
    ∧ (t.errcode = .badreg → ∃ k ∈ i.usedRegs, s.params.nreg ≤ k.val)
    ∧ (t.errcode = .modulus → i.opcode ∈ [0x01#8, 0x02#8, 0x03#8, 0x04#8, 0x05#8, 0x06#8, 0x07#8, 0x0A#8])
    ∧ (t.errcode = .range → i.opcode ∈ [0x01#8, 0x0B#8])
    ∧ (t.errcode = .domain → i.opcode = 0x0A#8)

/-- R20, R81, R88: the frame of every command. Registers other than its destinations, L, IE, the sticky bits, the
instance, the bus answer and the pending events are as before; BUSY is 0 and DONE is 1; the count of free values moves
only if a source was unwritten. The model's own choices here: log 3. -/
def Obligations.CommandFrame : Prop :=
  ∀ (i : Instr) (s t : State), exec i s = .next t →
    Completes s t t.result t.errcode ∧ KeepsOtherRegs s t i.dests
    ∧ (s.allWritten i.sources = true → t.freeCount = s.freeCount)

/-- R80: a command reads its source registers and no other state. Of two states of one instance that agree on its
sources (and on the number of the next free value), one gives the same RESULT and ERRCODE as the other. Without an error
the destinations get the same words, whatever they held before; with an error neither state's registers change. A
command that faults on one faults on the other. The model's own choices here: logs 2 and 3. -/
def Obligations.CommandReadsOnlyItsSources : Prop :=
  ∀ (i : Instr) (s s' : State), s.params = s'.params → s.freeCount = s'.freeCount →
    (∀ k ∈ i.sources, ∀ j, s.word k.val j = s'.word k.val j) →
    (∀ t, exec i s = .next t →
      ∃ t', exec i s' = .next t' ∧ t'.result = t.result ∧ t'.errcode = t.errcode
        ∧ (t.errcode = .none → s.x.length = s'.x.length → ∀ k ∈ i.dests, ∀ j, t'.word k.val j = t.word k.val j)
        ∧ (t.errcode ≠ .none → t.x = s.x ∧ t'.x = s'.x))
    ∧ (∀ f, exec i s = .fault f → exec i s' = .fault f)

/-! ## The Host's accesses -/

/-- R79: a CMD write to an idle block is accepted and latched, whatever the word; to a busy one it is dropped with
OVERRUN. The model's own choices here: logs 4 and 6. -/
def Obligations.CmdWriteIssuesOrOverruns : Prop :=
  ∀ (s : State) (c : Word) (es : List Event), s.events = hostWR 0x000C c :: es →
    (s.busy = false → step s = .next { s with
      events := es, reply := none, L := c, busy := true, done := false, result := false, errcode := .none })
    ∧ (s.busy = true → step s = .next { s with events := es, reply := none, overrun := true })

/-- R37: an operand window read returns the word as it stands, while BUSY too, and changes nothing; an unwritten word
is the fault of R32 or reads as a free value, as the instance says. Word j is bits 32j+31 : 32j of the register.
The model's own choices here: logs 4, 6, 2 and 3. -/
def Obligations.WindowReadReturnsTheWord : Prop :=
  (∀ (s : State) (i j : Nat) (es : List Event), s.params.Legal → i < s.params.nreg → j < s.params.wwords →
    s.events = hostRD (windowOffset i j) :: es →
    (∀ w, s.word i j = some w → step s = .next { s with events := es, reply := some w })
    ∧ (s.word i j = none → s.params.unwritten = .fault → step s = .fault .unwrittenRead)
    ∧ (s.word i j = none → s.params.unwritten = .free →
        ∃ w, step s = .next { s with events := es, reply := some w, freeCount := s.freeCount + 1 }))
  ∧ (∀ (s : State) (f : Nat) (k : RegIx) (j : Nat) (w : Word), j < s.params.wwords → s.word k.val j = some w →
      s.operand f k / 2 ^ (32 * j) % 2 ^ 32 = w.toNat)

/-- R37, R106: an operand window write changes that word alone, or, while BUSY, only sets OVERRUN. The model's own
choices here: logs 4 and 6. -/
def Obligations.WindowWriteStoresOrOverruns : Prop :=
  ∀ (s : State) (i j : Nat) (v : Word) (es : List Event), s.params.Legal → s.RegsWf → i < s.params.nreg →
    j < s.params.wwords → s.events = hostWR (windowOffset i j) v :: es →
    (s.busy = false → ∃ t, step s = .next t ∧ t.word i j = some v
      ∧ (∀ k l, ¬(k = i ∧ l = j) → t.word k l = s.word k l)
      ∧ t = { s with events := es, reply := none, x := t.x })
    ∧ (s.busy = true → step s = .next { s with events := es, reply := none, overrun := true })

/-- R35, R48: an access that is not 4 bytes, not at a multiple of 4, or not below 0x4000 sets ACCERR, reads 0, and does
nothing else. The model's own choices here: logs 4 and 6, and log 8 for an offset of 0x4000 or more. -/
def Obligations.UnsupportedAccessSetsAccerr : Prop :=
  ∀ (s : State) (a : Access) (es : List Event), s.events = .access a :: es →
    (a.size ≠ 4 ∨ a.off % 4 ≠ 0 ∨ 0x4000 ≤ a.off) →
    step s = .next { s with events := es, accerr := true, reply := if a.kind = .read then some 0 else none }

/-- R21, R38, R48: an aligned 32-bit access to an offset that is none of the six registers and no window word sets
ACCERR, reads 0 and writes nothing. An access to any other offset goes on, but for the fault of R32 on a read of an
unwritten word, and never sets ACCERR; it leaves ACCERR as it was, but for a write of CTRL (a soft reset) or of CLEAR.
The model's own choices here: logs 2, 4 and 6, and log 9 for the offsets from 0x3000 on with NREG = 16. -/
def Obligations.UnmappedOffsetsSetAccerr : Prop :=
  ∀ (s : State) (k : BusKind) (off : Nat) (v : Word) (es : List Event), s.params.Legal → off % 4 = 0 →
    off < 0x4000 → s.events = .access { kind := k, off := off, size := 4, data := v } :: es →
    ((off ∉ [0x0000, 0x0004, 0x0008, 0x000C, 0x0010, 0x0014]
        ∧ ∀ i j, i < s.params.nreg → j < s.params.wwords → off ≠ windowOffset i j) →
      step s = .next { s with events := es, accerr := true, reply := if k = .read then some 0 else none })
    ∧ ((off ∈ [0x0000, 0x0004, 0x0008, 0x000C, 0x0010, 0x0014]
        ∨ ∃ i j, i < s.params.nreg ∧ j < s.params.wwords ∧ off = windowOffset i j
            ∧ (k = .read → s.word i j = none → s.params.unwritten = .free)) →
      ∃ t, step s = .next t ∧ (t.accerr = true → s.accerr = true)
        ∧ ((k = .read ∨ off ∉ [0x0008, 0x0014]) → t.accerr = s.accerr))

/-- R24: a CTRL write with bit 2 is a soft reset and nothing else; otherwise it sets IE from bit 0 and then, with bit
1, aborts the command in progress; every other bit is ignored. A CTRL read returns IE alone. The model's own choices
here: logs 4 and 6. -/
def Obligations.CtrlWriteOrder : Prop :=
  (∀ (s : State) (v : Word) (es : List Event), s.events = hostWR 0x0008 v :: es →
    (v.getLsbD 2 = true → step s = .next { s with
      events := es, reply := none, ie := false, L := 0, busy := false, done := false, result := false,
      errcode := .none, overrun := false, accerr := false })
    ∧ (v.getLsbD 2 = false → (v.getLsbD 1 = false ∨ s.busy = false) →
        step s = .next { s with events := es, reply := none, ie := v.getLsbD 0 })
    ∧ (v.getLsbD 2 = false → v.getLsbD 1 = true → s.busy = true → step s = .next { s with
        events := es, reply := none, ie := v.getLsbD 0, busy := false, done := true, result := false,
        errcode := .aborted }))
  ∧ (∀ (s : State) (es : List Event), s.events = hostRD 0x0008 :: es →
      step s = .next { s with events := es, reply := some (if s.ie then 1 else 0) })

/-- R82: an abort of a command in progress ends it with ERRCODE 6 and DONE, writes no operand register, leaves L, and
raises IRQ as the same write's IE says; an abort of an idle block changes none of the status. The model's own choices
here: log 4. -/
def Obligations.AbortDiscardsTheCommand : Prop :=
  ∀ (s : State) (v : Word) (es : List Event), s.events = hostWR 0x0008 v :: es → v.getLsbD 1 = true →
    v.getLsbD 2 = false → ∃ t, step s = .next t ∧ t.x = s.x ∧ t.L = s.L ∧ t.ie = v.getLsbD 0 ∧ t.busy = false
      ∧ (s.busy = true → t.done = true ∧ t.result = false ∧ t.errcode = .aborted ∧ t.err = true
          ∧ t.irq = v.getLsbD 0)
      ∧ (s.busy = false → t.done = s.done ∧ t.result = s.result ∧ t.errcode = s.errcode)

/-- R101: RST from any state: no command in progress, IE, L and every STATUS bit 0, IRQ 0, every operand word
unwritten, the instance as before. The model's own choices here: log 4. -/
def Obligations.PowerOnResetState : Prop :=
  ∀ (s : State) (es : List Event), s.events = .rst :: es → ∃ t, step s = .next t
    ∧ t.ie = false ∧ t.L = 0 ∧ t.busy = false ∧ t.done = false ∧ t.result = false ∧ t.errcode = .none
    ∧ t.overrun = false ∧ t.accerr = false ∧ t.irq = false ∧ t.statusWord = 0 ∧ t.params = s.params
    ∧ t.events = es ∧ t.RegsWf ∧ ∀ i j, t.word i j = none

/-- R28: a CLEAR write clears DONE, OVERRUN and ACCERR by bits 1, 16 and 17 and changes nothing else; a CLEAR read
returns 0. The model's own choices here: logs 4 and 6. -/
def Obligations.ClearWriteClearsStickyBits : Prop :=
  (∀ (s : State) (v : Word) (es : List Event), s.events = hostWR 0x0014 v :: es →
    ∃ t, step s = .next t
      ∧ t.done = (if v.getLsbD 1 then false else s.done)
      ∧ t.overrun = (if v.getLsbD 16 then false else s.overrun)
      ∧ t.accerr = (if v.getLsbD 17 then false else s.accerr)
      ∧ t = { s with events := es, reply := none, done := t.done, overrun := t.overrun, accerr := t.accerr })
  ∧ (∀ (s : State) (es : List Event), s.events = hostRD 0x0014 :: es →
      step s = .next { s with events := es, reply := some 0 })

/-- R26, R48: the place of every STATUS field; the reserved bits read 0. -/
def Obligations.StatusWordLayout : Prop :=
  ∀ s : State,
    s.statusWord.getLsbD 0 = s.busy ∧ s.statusWord.getLsbD 1 = s.done ∧ s.statusWord.getLsbD 2 = s.err
    ∧ s.statusWord.getLsbD 3 = s.result ∧ s.statusWord.extractLsb' 4 4 = 0#4
    ∧ s.statusWord.extractLsb' 8 4 = s.errcode.bits ∧ s.statusWord.extractLsb' 12 4 = 0#4
    ∧ s.statusWord.getLsbD 16 = s.overrun ∧ s.statusWord.getLsbD 17 = s.accerr
    ∧ s.statusWord.extractLsb' 18 14 = 0#14 ∧ (s.err = true ↔ s.errcode.bits ≠ 0)

/-- R21, R22, R23, R25, R26: the other registers read as their rules say, and a write to a read-only one has no effect
and sets no ACCERR. The model's own choices here: logs 4 and 6. -/
def Obligations.ControlRegisterReads : Prop :=
  (∀ (s : State) (es : List Event),
    (s.events = hostRD 0x0000 :: es → step s = .next { s with events := es, reply := some 0x4D4D0001 })
    ∧ (s.events = hostRD 0x0004 :: es → s.params.Legal → ∃ w : Word, w.extractLsb' 0 8 = BitVec.ofNat 8 s.params.wwords
        ∧ w.toNat = s.params.wwords + 2 ^ 8 * s.params.nreg
        ∧ step s = .next { s with events := es, reply := some w })
    ∧ (s.events = hostRD 0x000C :: es → step s = .next { s with events := es, reply := some s.L })
    ∧ (s.events = hostRD 0x0010 :: es → step s = .next { s with events := es, reply := some s.statusWord }))
  ∧ (∀ (s : State) (v : Word) (off : Nat) (es : List Event), off ∈ [0x0000, 0x0004, 0x0010] →
      s.events = hostWR off v :: es → step s = .next { s with events := es, reply := none })
  ∧ configWord Params.production = 0x00000820

/-- R29, R90: IRQ is IE ∧ DONE: a completion raises it when IE is set, setting IE raises it when DONE is set, and
clearing DONE, an accepted command and a reset drop it. -/
def Obligations.IrqFollowsEnableAndDone : Prop :=
  (∀ s : State, s.irq = true ↔ s.ie = true ∧ s.done = true)
  ∧ (∀ (i : Instr) (s t : State), exec i s = .next t → t.irq = s.ie)
  ∧ (∀ (s : State) (c : Word), (s.accept c).irq = false ∧ s.softReset.irq = false ∧ s.powerOnReset.irq = false)
  ∧ (∀ (s : State) (v : Word), v.getLsbD 1 = true → (writeClear v s).irq = false)

/-- R41: a read of a mapped offset (of a window word that is written) returns the same data when it is repeated at
once, and leaves the block as it was: two reads change nothing but the answer and the events left. The model's own
choices here: logs 4 and 6. -/
def Obligations.ReadsAreIdempotent : Prop :=
  ∀ (s : State) (off : Nat) (es : List Event), s.params.Legal →
    (off ∈ [0x0000, 0x0004, 0x0008, 0x000C, 0x0010, 0x0014]
      ∨ ∃ i j, i < s.params.nreg ∧ j < s.params.wwords ∧ off = windowOffset i j ∧ s.word i j ≠ none) →
    s.events = hostRD off :: hostRD off :: es →
    ∃ t u w, step s = .next t ∧ t.reply = some w ∧ step t = .next u ∧ u = { s with events := es, reply := some w }

/-- R8, R40: an access at a system address reaches the block exactly when its offset from BASE is in [0, 0x4000), and
is then the access at that offset; elsewhere it changes nothing in the block. The model's own choices here: logs 4 and
8. -/
def Obligations.BusDecodesOnlyTheAperture : Prop :=
  ∀ (s : State) (k : BusKind) (addr size : Nat) (v : Word) (es : List Event),
    s.events = .bus k addr size v :: es →
    (∀ off, off < 0x4000 → addr = s.params.base + off →
      step s = step { s with events := .access { kind := k, off := off, size := size, data := v } :: es })
    ∧ ((addr < s.params.base ∨ s.params.base + 0x4000 ≤ addr) → step s = .next { s with events := es })

/-! ## Sequences of events -/

/-- R83: from one busy state, the abort before the completion leaves every register and reports ABORTED; the completion
before the abort leaves what the command left, or ILLEGAL where the latch holds no legal word. Both orders are runs of
the machine. The model's own choices here: log 4, and log 5 for the Engine's event on the block the abort left idle. -/
def Obligations.AbortAndCompletionRace : Prop :=
  ∀ (s : State) (es : List Event), s.busy = true →
    (s.events = hostWR 0x0008 0x2 :: .engine :: es → ∃ t, RunsTo 2 s t ∧ t.x = s.x ∧ t.errcode = .aborted
      ∧ t.busy = false ∧ t.done = true ∧ t.events = es)
    ∧ (∀ i u, s.events = .engine :: hostWR 0x0008 0x2 :: es → decode s.L = .ok i →
        exec i { s with events := [] } = .next u →
        ∃ t, RunsTo 2 s t ∧ t.x = u.x ∧ t.errcode = u.errcode ∧ t.result = u.result ∧ t.busy = false ∧ t.done = true
          ∧ t.events = es)
    ∧ (∀ e, s.events = .engine :: hostWR 0x0008 0x2 :: es → decode s.L = .error e →
        ∃ t, RunsTo 2 s t ∧ t.x = s.x ∧ t.errcode = .illegal ∧ t.result = false ∧ t.busy = false ∧ t.done = true
          ∧ t.events = es)

/-- R37, R59: LOAD on an idle block writes exactly the value, in W/32 steps, and touches nothing else of the block.
The model's own choices here: logs 4 and 6. -/
def Obligations.LoadWritesTheValue : Prop :=
  ∀ (s : State) (k : RegIx) (v : Nat) (es : List Event), s.params.Legal → s.RegsWf → s.busy = false →
    k.val < s.params.nreg → v < 2 ^ s.params.width → s.events = hostLOAD s.params k v ++ es →
    ∃ t, RunsTo s.params.wwords s t ∧ t.written k.val = true ∧ (∀ f, t.operand f k = v) ∧ KeepsOtherRegs s t [k]
      ∧ t = { s with x := t.x, events := es, reply := none }

/-- R59, R42: EXEC of a legal command on an idle block, with any number of polls before the completion, ends with the
command's effect and with the STATUS word as the last answer, BUSY 0 in it. The model's own choices here: logs 4 and
6. -/
def Obligations.ExecSequenceReturnsStatus : Prop :=
  ∀ (s u : State) (i : Instr) (n : Nat) (es : List Event), s.busy = false → i.wellFormed = true →
    s.events = hostEXEC i n ++ es →
    exec i { s.accept (encode i) with events := es } = .next u →
    ∃ t, RunsTo (n + 3) s t ∧ t = { u with reply := some u.statusWord } ∧ u.statusWord.getLsbD 0 = false

/-- R85, R111: the block works off any finite list of events and then the command in progress: one step more than there
are events leaves it idle with nothing pending, and no step stops; but in an instance that treats a read of an unwritten
word as R32's fault, such a read may stop the run before that. The model's own choices here: logs 2 and 4, and log 5 for
the steps of an idle block that change nothing. -/
def Obligations.PendingWorkEnds : Prop :=
  ∀ s : State,
    (s.params.unwritten = .free → ∃ t, RunsTo (s.events.length + 1) s t ∧ t.events = [] ∧ t.busy = false)
    ∧ (s.params.unwritten = .fault → s.params.Legal →
        (∃ t, RunsTo (s.events.length + 1) s t ∧ t.events = [] ∧ t.busy = false)
        ∨ ∃ n u f, n ≤ s.events.length ∧ RunsTo n s u ∧ u.ReadsUnwritten ∧ step u = .fault f)

/-! ## The whole machine -/

/-- The good states (a legal instance, a register file of its shape, R27) are closed under every step. -/
def Obligations.StepKeepsTheInvariant : Prop :=
  ∀ s t : State, s.Inv → step s = .next t → t.Inv

/-- Every legal instance is in a good state after reset, with BUSY and DONE 0 (R27, R31), and so is the production
instance. The instance's BASE is the model's choice: log 1. -/
def Obligations.ResetMeetsTheInvariant : Prop :=
  (∀ p : Params, p.Legal → (State.resetOf p).Inv ∧ (State.resetOf p).busy = false ∧ (State.resetOf p).done = false)
  ∧ State.reset.Inv ∧ State.reset.params.width = 1024 ∧ State.reset.params.nreg = 8

/-- R32, R34, R85: a step of a legal instance is a fault exactly when its first event reads an unwritten window word, or
it completes a latched command that has a source with an unwritten word, in an instance that treats that as R32 says; it
is never a refusal. Where an instance reads unwritten words as free values every step goes on, and a legal one counts
exactly those reads. The model's own choices here: logs 2, 3 and 4. -/
def Obligations.OnlyUnwrittenReadsStop : Prop :=
  ∀ s : State,
    (s.params.unwritten = .free → ∃ t, step s = .next t)
    ∧ (s.params.Legal →
      (s.ReadsUnwrittenWord → s.params.unwritten = .fault → step s = .fault .unwrittenRead)
      ∧ (∀ i, s.CompletesNext i → s.ReadsUnwrittenSource i → s.params.unwritten = .fault →
          step s = .fault .unwrittenOperand)
      ∧ (s.ReadsUnwritten → s.params.unwritten = .free → ∃ t, step s = .next t ∧ t.freeCount = s.freeCount + 1)
      ∧ (¬s.ReadsUnwritten → ∃ t, step s = .next t ∧ t.freeCount = s.freeCount))

/-- R20, R37: an operand word changes only when the Engine completes a command that names its register as a
destination, when the Host writes it while BUSY = 0, or at RST. The model's own choices here: logs 4 and 8. -/
def Obligations.OperandWordsChangeOnlyAsStated : Prop :=
  ∀ (s t : State) (i j : Nat), s.params.Legal → step s = .next t → t.word i j ≠ s.word i j →
    (s.busy = true ∧ (s.events = [] ∨ ∃ es, s.events = .engine :: es)
      ∧ ∃ c, decode s.L = .ok c ∧ ∃ k ∈ c.dests, i = k.val)
    ∨ (s.busy = false ∧ i < s.params.nreg ∧ j < s.params.wwords ∧ ∃ v es,
        (s.events = hostWR (windowOffset i j) v :: es
          ∨ s.events = .bus .write (s.params.base + windowOffset i j) 4 v :: es) ∧ t.word i j = some v)
    ∨ (∃ es, s.events = .rst :: es)

/-- R81: while a command is in progress, only its completion, an abort, a soft reset or RST can end it; every other event
leaves BUSY, the latch, RESULT, ERRCODE and all operand registers alone and does not set DONE. The model's own choices
here: logs 4 and 8. -/
def Obligations.CommandInProgressIsKept : Prop :=
  ∀ s t : State, step s = .next t → s.busy = true →
    (t.busy = true ∧ t.L = s.L ∧ t.x = s.x ∧ (s.done = false → t.done = false) ∧ t.result = s.result
        ∧ t.errcode = s.errcode)
    ∨ s.events = [] ∨ ∃ e es, s.events = e :: es ∧ (e = .engine ∨ e = .rst
        ∨ ∃ v : Word, (v.getLsbD 1 = true ∨ v.getLsbD 2 = true)
          ∧ (e = hostWR 0x0008 v ∨ e = .bus .write (s.params.base + 0x0008) 4 v))

/-- R26, R93: DONE is set only by a step that ends a command in progress, by its completion or an abort. -/
def Obligations.DoneIsSetOnlyByACommandsEnd : Prop :=
  ∀ s t : State, step s = .next t → s.done = false → t.done = true → s.busy = true ∧ t.busy = false

/-- R26, R30: RESULT is set only by the completion of an RMWIT without error. -/
def Obligations.OnlyRmwitSetsResult : Prop :=
  ∀ s t : State, step s = .next t → s.result = false → t.result = true →
    s.busy = true ∧ (∃ ra rc, decode s.L = .ok (.rmwit ra rc)) ∧ t.errcode = .none ∧ t.done = true
end

