-- ==== Sys2Proof/Laws/Arith.lean ====
section
/-! SUPPORT. The arithmetic of the meanings: the square-and-multiply loop computes a power for any multiplier that
acts like multiplication, and the cut-off recursion of R69 does not depend on its fuel. -/

namespace Sys2Proof.Machine

/-! ## Square and multiply (41_modexp.md R68) -/

/-- The loop over the low `n` bits of `e` raises: if `rep acc k` says that `acc` stands for the `k`-th power, and the
multiplier adds exponents, then the loop ends with exponent `k · 2^n + e mod 2^n`. -/
theorem expLoop_rep (mul : Nat → Nat → Nat) (g e : Nat) (rep : Nat → Nat → Prop)
    (hg : rep g 1) (hmul : ∀ u v k l, rep u k → rep v l → rep (mul u v) (k + l)) (n acc k : Nat)
    (h : rep acc k) : rep (expLoop mul g e n acc) (k * 2 ^ n + e % 2 ^ n) := by
  induction n generalizing acc k with
  | zero => simpa [expLoop, Nat.mod_one] using h
  | succ n ih =>
    have hb := Nat.mod_pow_succ (x := e) (b := 2) (k := n)
    have hsq := hmul acc acc k k h h
    simp only [expLoop]
    have hbit := Nat.testBit_eq_decide_div_mod_eq (x := e) (i := n)
    rcases Nat.mod_two_eq_zero_or_one (e / 2 ^ n) with h2 | h2
    · have := ih (mul acc acc) (k + k) hsq
      have e1 : (k + k) * 2 ^ n + e % 2 ^ n = k * 2 ^ (n + 1) + e % 2 ^ (n + 1) := by
        rw [hb, h2]; ring
      simpa [hbit, h2, e1] using this
    · have := ih (mul (mul acc acc) g) (k + k + 1) (hmul _ _ _ _ hsq hg)
      have e1 : (k + k + 1) * 2 ^ n + e % 2 ^ n = k * 2 ^ (n + 1) + e % 2 ^ (n + 1) := by
        rw [hb, h2]; ring
      simpa [hbit, h2, e1] using this

/-- MODEXP's value is the power of R67. -/
theorem powMod_eq (g e N : Nat) : powMod g e N = g ^ e % N := by
  have h := expLoop_rep (fun u v => u * v % N) (g % N) e (fun a k => a = g ^ k % N) (by simp)
    (by rintro u v k l rfl rfl; simp [pow_add, Nat.mul_mod]) (Nat.log2 e + 1) (1 % N) 0 (by simp)
  rw [powMod, h, Nat.mod_eq_of_lt Nat.lt_log2_self]
  simp

/-! ## The fuel of the Euclidean recursion (42_euclid.md R69) -/

theorem xgcdFuel_zero_right (fuel a : Nat) : xgcdFuel fuel a 0 = (1, 0) := by
  cases fuel <;> simp [xgcdFuel]

/-- Two steps of the Euclidean algorithm halve its second argument. -/
theorem mod_mod_lt_half (b r n : Nat) (hr : 0 < r) (hrb : r < b) (hb : b < 2 ^ (n + 1)) : b % r < 2 ^ n := by
  have h1 := Nat.mod_lt b hr
  have h2 : b % r ≤ b - r := by
    rw [Nat.mod_eq_sub_mod hrb.le]
    exact Nat.mod_le _ _
  have e : 2 ^ (n + 1) = 2 * 2 ^ n := by ring
  omega

/-- With fuel for twice the bits of the second argument, more fuel changes nothing. -/
theorem xgcdFuel_stable (n : Nat) : ∀ fuel fuel' a b, b < 2 ^ n → 2 * n ≤ fuel → 2 * n ≤ fuel' →
    xgcdFuel fuel a b = xgcdFuel fuel' a b := by
  induction n with
  | zero =>
    intro fuel fuel' a b hb _ _
    obtain rfl : b = 0 := by omega
    simp [xgcdFuel_zero_right]
  | succ n ih =>
    intro fuel fuel' a b hb hf hf'
    obtain ⟨f, rfl⟩ : ∃ f, fuel = f + 2 := ⟨fuel - 2, by omega⟩
    obtain ⟨f', rfl⟩ : ∃ f', fuel' = f' + 2 := ⟨fuel' - 2, by omega⟩
    simp only [xgcdFuel]
    by_cases h0 : b = 0
    · simp [h0]
    by_cases h1 : a % b = 0
    · simp [h0, h1]
    have hlt := mod_mod_lt_half b (a % b) n (Nat.pos_of_ne_zero h1) (Nat.mod_lt a (Nat.pos_of_ne_zero h0)) hb
    simp only [h0, h1, if_false]
    rw [ih f f' (a % b) (b % (a % b)) hlt (by omega) (by omega)]

/-- `xgcd` is the recursion with any fuel that suffices. -/
theorem xgcd_eq_fuel (n fuel a b : Nat) (hb : b < 2 ^ n) (hf : 2 * n ≤ fuel) : xgcd a b = xgcdFuel fuel a b := by
  have hl : b < 2 ^ (Nat.log2 b + 1) := Nat.lt_log2_self
  have h1 := xgcdFuel_stable (Nat.log2 b + 1) (2 * (Nat.log2 b + 1) + 1)
    (max (2 * (Nat.log2 b + 1)) fuel) a b hl (by omega) (by omega)
  rw [xgcd, h1]
  exact xgcdFuel_stable n _ _ a b hb (by omega) hf

end Sys2Proof.Machine
end

