-- ==== Sys2Proof/Laws/State.lean ====
section
/-! SUPPORT. One lemma per field per shared operation, all true by unfolding, so that no later proof unfolds a record
update. -/

namespace Sys2Proof.Machine

/-! ## Issue -/

@[simp] theorem State.accept_params (c : Word) (s : State) : (s.accept c).params = s.params := rfl
@[simp] theorem State.accept_x (c : Word) (s : State) : (s.accept c).x = s.x := rfl
@[simp] theorem State.accept_ie (c : Word) (s : State) : (s.accept c).ie = s.ie := rfl
@[simp] theorem State.accept_L (c : Word) (s : State) : (s.accept c).L = c := rfl
@[simp] theorem State.accept_busy (c : Word) (s : State) : (s.accept c).busy = true := rfl
@[simp] theorem State.accept_done (c : Word) (s : State) : (s.accept c).done = false := rfl
@[simp] theorem State.accept_result (c : Word) (s : State) : (s.accept c).result = false := rfl
@[simp] theorem State.accept_errcode (c : Word) (s : State) : (s.accept c).errcode = .none := rfl
@[simp] theorem State.accept_overrun (c : Word) (s : State) : (s.accept c).overrun = s.overrun := rfl
@[simp] theorem State.accept_accerr (c : Word) (s : State) : (s.accept c).accerr = s.accerr := rfl
@[simp] theorem State.accept_reply (c : Word) (s : State) : (s.accept c).reply = s.reply := rfl
@[simp] theorem State.accept_events (c : Word) (s : State) : (s.accept c).events = s.events := rfl
@[simp] theorem State.accept_freeCount (c : Word) (s : State) : (s.accept c).freeCount = s.freeCount := rfl

/-! ## Completion -/

@[simp] theorem State.complete_params (r : CmdResult) (s : State) : (s.complete r).params = s.params := by cases r <;> rfl
@[simp] theorem State.complete_ie (r : CmdResult) (s : State) : (s.complete r).ie = s.ie := by cases r <;> rfl
@[simp] theorem State.complete_L (r : CmdResult) (s : State) : (s.complete r).L = s.L := by cases r <;> rfl
@[simp] theorem State.complete_busy (r : CmdResult) (s : State) : (s.complete r).busy = false := by cases r <;> rfl
@[simp] theorem State.complete_done (r : CmdResult) (s : State) : (s.complete r).done = true := by cases r <;> rfl
@[simp] theorem State.complete_overrun (r : CmdResult) (s : State) : (s.complete r).overrun = s.overrun := by cases r <;> rfl
@[simp] theorem State.complete_accerr (r : CmdResult) (s : State) : (s.complete r).accerr = s.accerr := by cases r <;> rfl
@[simp] theorem State.complete_reply (r : CmdResult) (s : State) : (s.complete r).reply = s.reply := by cases r <;> rfl
@[simp] theorem State.complete_events (r : CmdResult) (s : State) : (s.complete r).events = s.events := by cases r <;> rfl
@[simp] theorem State.complete_freeCount (r : CmdResult) (s : State) : (s.complete r).freeCount = s.freeCount := by cases r <;> rfl

@[simp] theorem State.complete_ok_x (ws : List (RegIx × Nat)) (b : Bool) (s : State) :
    (s.complete (.ok ws b)).x = writeRegs s.params.wwords s.x ws := rfl
@[simp] theorem State.complete_ok_result (ws : List (RegIx × Nat)) (b : Bool) (s : State) :
    (s.complete (.ok ws b)).result = b := rfl
@[simp] theorem State.complete_ok_errcode (ws : List (RegIx × Nat)) (b : Bool) (s : State) :
    (s.complete (.ok ws b)).errcode = .none := rfl
@[simp] theorem State.complete_err_x (c : ErrCode) (s : State) : (s.complete (.err c)).x = s.x := rfl
@[simp] theorem State.complete_err_result (c : ErrCode) (s : State) : (s.complete (.err c)).result = false := rfl
@[simp] theorem State.complete_err_errcode (c : ErrCode) (s : State) : (s.complete (.err c)).errcode = c := rfl

/-! ## Soft reset -/

@[simp] theorem State.softReset_params (s : State) : (s.softReset).params = s.params := rfl
@[simp] theorem State.softReset_x (s : State) : (s.softReset).x = s.x := rfl
@[simp] theorem State.softReset_ie (s : State) : (s.softReset).ie = false := rfl
@[simp] theorem State.softReset_L (s : State) : (s.softReset).L = 0 := rfl
@[simp] theorem State.softReset_busy (s : State) : (s.softReset).busy = false := rfl
@[simp] theorem State.softReset_done (s : State) : (s.softReset).done = false := rfl
@[simp] theorem State.softReset_result (s : State) : (s.softReset).result = false := rfl
@[simp] theorem State.softReset_errcode (s : State) : (s.softReset).errcode = .none := rfl
@[simp] theorem State.softReset_overrun (s : State) : (s.softReset).overrun = false := rfl
@[simp] theorem State.softReset_accerr (s : State) : (s.softReset).accerr = false := rfl
@[simp] theorem State.softReset_reply (s : State) : (s.softReset).reply = s.reply := rfl
@[simp] theorem State.softReset_events (s : State) : (s.softReset).events = s.events := rfl
@[simp] theorem State.softReset_freeCount (s : State) : (s.softReset).freeCount = s.freeCount := rfl

/-! ## Power-on reset -/

@[simp] theorem State.powerOnReset_params (s : State) : (s.powerOnReset).params = s.params := rfl
@[simp] theorem State.powerOnReset_x (s : State) : (s.powerOnReset).x = List.replicate s.params.nreg (List.replicate s.params.wwords none) := rfl
@[simp] theorem State.powerOnReset_ie (s : State) : (s.powerOnReset).ie = false := rfl
@[simp] theorem State.powerOnReset_L (s : State) : (s.powerOnReset).L = 0 := rfl
@[simp] theorem State.powerOnReset_busy (s : State) : (s.powerOnReset).busy = false := rfl
@[simp] theorem State.powerOnReset_done (s : State) : (s.powerOnReset).done = false := rfl
@[simp] theorem State.powerOnReset_result (s : State) : (s.powerOnReset).result = false := rfl
@[simp] theorem State.powerOnReset_errcode (s : State) : (s.powerOnReset).errcode = .none := rfl
@[simp] theorem State.powerOnReset_overrun (s : State) : (s.powerOnReset).overrun = false := rfl
@[simp] theorem State.powerOnReset_accerr (s : State) : (s.powerOnReset).accerr = false := rfl
@[simp] theorem State.powerOnReset_reply (s : State) : (s.powerOnReset).reply = none := rfl
@[simp] theorem State.powerOnReset_events (s : State) : (s.powerOnReset).events = s.events := rfl
@[simp] theorem State.powerOnReset_freeCount (s : State) : (s.powerOnReset).freeCount = s.freeCount := rfl

/-! ## Reading source registers -/

@[simp] theorem State.afterRead_params (ks : List RegIx) (s : State) : (s.afterRead ks).params = s.params := rfl
@[simp] theorem State.afterRead_x (ks : List RegIx) (s : State) : (s.afterRead ks).x = s.x := rfl
@[simp] theorem State.afterRead_ie (ks : List RegIx) (s : State) : (s.afterRead ks).ie = s.ie := rfl
@[simp] theorem State.afterRead_L (ks : List RegIx) (s : State) : (s.afterRead ks).L = s.L := rfl
@[simp] theorem State.afterRead_busy (ks : List RegIx) (s : State) : (s.afterRead ks).busy = s.busy := rfl
@[simp] theorem State.afterRead_done (ks : List RegIx) (s : State) : (s.afterRead ks).done = s.done := rfl
@[simp] theorem State.afterRead_result (ks : List RegIx) (s : State) : (s.afterRead ks).result = s.result := rfl
@[simp] theorem State.afterRead_errcode (ks : List RegIx) (s : State) : (s.afterRead ks).errcode = s.errcode := rfl
@[simp] theorem State.afterRead_overrun (ks : List RegIx) (s : State) : (s.afterRead ks).overrun = s.overrun := rfl
@[simp] theorem State.afterRead_accerr (ks : List RegIx) (s : State) : (s.afterRead ks).accerr = s.accerr := rfl
@[simp] theorem State.afterRead_reply (ks : List RegIx) (s : State) : (s.afterRead ks).reply = s.reply := rfl
@[simp] theorem State.afterRead_events (ks : List RegIx) (s : State) : (s.afterRead ks).events = s.events := rfl
@[simp] theorem State.afterRead_freeCount (ks : List RegIx) (s : State) : (s.afterRead ks).freeCount = (if s.allWritten ks then s.freeCount else s.freeCount + 1) := rfl

/-! ## A bus write of one operand word -/

@[simp] theorem State.setWord_params (k j : Nat) (w : Word) (s : State) : (s.setWord k j w).params = s.params := rfl
@[simp] theorem State.setWord_x (k j : Nat) (w : Word) (s : State) : (s.setWord k j w).x = s.x.set k ((s.x.getD k []).set j (some w)) := rfl
@[simp] theorem State.setWord_ie (k j : Nat) (w : Word) (s : State) : (s.setWord k j w).ie = s.ie := rfl
@[simp] theorem State.setWord_L (k j : Nat) (w : Word) (s : State) : (s.setWord k j w).L = s.L := rfl
@[simp] theorem State.setWord_busy (k j : Nat) (w : Word) (s : State) : (s.setWord k j w).busy = s.busy := rfl
@[simp] theorem State.setWord_done (k j : Nat) (w : Word) (s : State) : (s.setWord k j w).done = s.done := rfl
@[simp] theorem State.setWord_result (k j : Nat) (w : Word) (s : State) : (s.setWord k j w).result = s.result := rfl
@[simp] theorem State.setWord_errcode (k j : Nat) (w : Word) (s : State) : (s.setWord k j w).errcode = s.errcode := rfl
@[simp] theorem State.setWord_overrun (k j : Nat) (w : Word) (s : State) : (s.setWord k j w).overrun = s.overrun := rfl
@[simp] theorem State.setWord_accerr (k j : Nat) (w : Word) (s : State) : (s.setWord k j w).accerr = s.accerr := rfl
@[simp] theorem State.setWord_reply (k j : Nat) (w : Word) (s : State) : (s.setWord k j w).reply = s.reply := rfl
@[simp] theorem State.setWord_events (k j : Nat) (w : Word) (s : State) : (s.setWord k j w).events = s.events := rfl
@[simp] theorem State.setWord_freeCount (k j : Nat) (w : Word) (s : State) : (s.setWord k j w).freeCount = s.freeCount := rfl

/-! ## Bus answers -/

@[simp] theorem State.answer_params (d : Word) (s : State) : (s.answer d).params = s.params := rfl
@[simp] theorem State.answer_x (d : Word) (s : State) : (s.answer d).x = s.x := rfl
@[simp] theorem State.answer_ie (d : Word) (s : State) : (s.answer d).ie = s.ie := rfl
@[simp] theorem State.answer_L (d : Word) (s : State) : (s.answer d).L = s.L := rfl
@[simp] theorem State.answer_busy (d : Word) (s : State) : (s.answer d).busy = s.busy := rfl
@[simp] theorem State.answer_done (d : Word) (s : State) : (s.answer d).done = s.done := rfl
@[simp] theorem State.answer_result (d : Word) (s : State) : (s.answer d).result = s.result := rfl
@[simp] theorem State.answer_errcode (d : Word) (s : State) : (s.answer d).errcode = s.errcode := rfl
@[simp] theorem State.answer_overrun (d : Word) (s : State) : (s.answer d).overrun = s.overrun := rfl
@[simp] theorem State.answer_accerr (d : Word) (s : State) : (s.answer d).accerr = s.accerr := rfl
@[simp] theorem State.answer_reply (d : Word) (s : State) : (s.answer d).reply = some d := rfl
@[simp] theorem State.answer_events (d : Word) (s : State) : (s.answer d).events = s.events := rfl
@[simp] theorem State.answer_freeCount (d : Word) (s : State) : (s.answer d).freeCount = s.freeCount := rfl

/-! ## A write's answer -/

@[simp] theorem State.noAnswer_params (s : State) : (s.noAnswer).params = s.params := rfl
@[simp] theorem State.noAnswer_x (s : State) : (s.noAnswer).x = s.x := rfl
@[simp] theorem State.noAnswer_ie (s : State) : (s.noAnswer).ie = s.ie := rfl
@[simp] theorem State.noAnswer_L (s : State) : (s.noAnswer).L = s.L := rfl
@[simp] theorem State.noAnswer_busy (s : State) : (s.noAnswer).busy = s.busy := rfl
@[simp] theorem State.noAnswer_done (s : State) : (s.noAnswer).done = s.done := rfl
@[simp] theorem State.noAnswer_result (s : State) : (s.noAnswer).result = s.result := rfl
@[simp] theorem State.noAnswer_errcode (s : State) : (s.noAnswer).errcode = s.errcode := rfl
@[simp] theorem State.noAnswer_overrun (s : State) : (s.noAnswer).overrun = s.overrun := rfl
@[simp] theorem State.noAnswer_accerr (s : State) : (s.noAnswer).accerr = s.accerr := rfl
@[simp] theorem State.noAnswer_reply (s : State) : (s.noAnswer).reply = none := rfl
@[simp] theorem State.noAnswer_events (s : State) : (s.noAnswer).events = s.events := rfl
@[simp] theorem State.noAnswer_freeCount (s : State) : (s.noAnswer).freeCount = s.freeCount := rfl

/-! ## Access errors -/

@[simp] theorem State.accessError_params (k : BusKind) (s : State) : (s.accessError k).params = s.params := rfl
@[simp] theorem State.accessError_x (k : BusKind) (s : State) : (s.accessError k).x = s.x := rfl
@[simp] theorem State.accessError_ie (k : BusKind) (s : State) : (s.accessError k).ie = s.ie := rfl
@[simp] theorem State.accessError_L (k : BusKind) (s : State) : (s.accessError k).L = s.L := rfl
@[simp] theorem State.accessError_busy (k : BusKind) (s : State) : (s.accessError k).busy = s.busy := rfl
@[simp] theorem State.accessError_done (k : BusKind) (s : State) : (s.accessError k).done = s.done := rfl
@[simp] theorem State.accessError_result (k : BusKind) (s : State) : (s.accessError k).result = s.result := rfl
@[simp] theorem State.accessError_errcode (k : BusKind) (s : State) : (s.accessError k).errcode = s.errcode := rfl
@[simp] theorem State.accessError_overrun (k : BusKind) (s : State) : (s.accessError k).overrun = s.overrun := rfl
@[simp] theorem State.accessError_accerr (k : BusKind) (s : State) : (s.accessError k).accerr = true := rfl
@[simp] theorem State.accessError_events (k : BusKind) (s : State) : (s.accessError k).events = s.events := rfl
@[simp] theorem State.accessError_freeCount (k : BusKind) (s : State) : (s.accessError k).freeCount = s.freeCount := rfl

@[simp] theorem State.accessError_read_reply (s : State) : (s.accessError .read).reply = some 0 := rfl
@[simp] theorem State.accessError_write_reply (s : State) : (s.accessError .write).reply = none := rfl

/-! ## Clearing sticky bits -/

@[simp] theorem State.writeClear_params (v : Word) (s : State) : (writeClear v s).params = s.params := rfl
@[simp] theorem State.writeClear_x (v : Word) (s : State) : (writeClear v s).x = s.x := rfl
@[simp] theorem State.writeClear_ie (v : Word) (s : State) : (writeClear v s).ie = s.ie := rfl
@[simp] theorem State.writeClear_L (v : Word) (s : State) : (writeClear v s).L = s.L := rfl
@[simp] theorem State.writeClear_busy (v : Word) (s : State) : (writeClear v s).busy = s.busy := rfl
@[simp] theorem State.writeClear_done (v : Word) (s : State) : (writeClear v s).done = (s.done && !v.getLsbD 1) := rfl
@[simp] theorem State.writeClear_result (v : Word) (s : State) : (writeClear v s).result = s.result := rfl
@[simp] theorem State.writeClear_errcode (v : Word) (s : State) : (writeClear v s).errcode = s.errcode := rfl
@[simp] theorem State.writeClear_overrun (v : Word) (s : State) : (writeClear v s).overrun = (s.overrun && !v.getLsbD 16) := rfl
@[simp] theorem State.writeClear_accerr (v : Word) (s : State) : (writeClear v s).accerr = (s.accerr && !v.getLsbD 17) := rfl
@[simp] theorem State.writeClear_reply (v : Word) (s : State) : (writeClear v s).reply = s.reply := rfl
@[simp] theorem State.writeClear_events (v : Word) (s : State) : (writeClear v s).events = s.events := rfl
@[simp] theorem State.writeClear_freeCount (v : Word) (s : State) : (writeClear v s).freeCount = s.freeCount := rfl

/-! ## Reading words depends on the register file alone -/

theorem State.word_congr (s t : State) (h : t.x = s.x) (k j : Nat) : t.word k j = s.word k j := by
  simp [State.word, h]

@[simp] theorem State.complete_err_word (c : ErrCode) (s : State) (k j : Nat) :
    (s.complete (.err c)).word k j = s.word k j := rfl
@[simp] theorem State.accept_word (c : Word) (s : State) (k j : Nat) : (s.accept c).word k j = s.word k j := rfl
@[simp] theorem State.afterRead_word (ks : List RegIx) (s : State) (k j : Nat) :
    (s.afterRead ks).word k j = s.word k j := rfl
@[simp] theorem State.softReset_word (s : State) (k j : Nat) : s.softReset.word k j = s.word k j := rfl

end Sys2Proof.Machine
end

