-- ==== Sys2Proof/Laws/Regs.lean ====
section
/-! SUPPORT. Words and numbers, and the register file: what a write changes, what it leaves alone, and that every
operation keeps the file's shape. -/

namespace Sys2Proof.Machine

/-! ## Words and numbers -/

@[simp] theorem natToWords_length (n v : Nat) : (natToWords n v).length = n := by
  induction n generalizing v with
  | zero => rfl
  | succ n ih => simp [natToWords, ih]

theorem wordsToNat_lt (ws : List Word) : wordsToNat ws < 2 ^ (32 * ws.length) := by
  induction ws with
  | nil => simp [wordsToNat]
  | cons w ws ih =>
    have hw := w.isLt
    have e : 2 ^ (32 * (w :: ws).length) = 2 ^ 32 * 2 ^ (32 * ws.length) := by
      rw [← pow_add]; congr 1; simp; omega
    rw [e]
    have : 2 ^ 32 * (wordsToNat ws + 1) ≤ 2 ^ 32 * 2 ^ (32 * ws.length) := Nat.mul_le_mul_left _ ih
    simp only [wordsToNat]
    omega

theorem wordsToNat_natToWords (n v : Nat) : wordsToNat (natToWords n v) = v % 2 ^ (32 * n) := by
  induction n generalizing v with
  | zero => simp [natToWords, wordsToNat, Nat.mod_one]
  | succ n ih =>
    have e : 2 ^ (32 * (n + 1)) = 2 ^ 32 * 2 ^ (32 * n) := by rw [← pow_add]; congr 1; omega
    rw [natToWords, wordsToNat, ih, e, Nat.mod_mul, BitVec.toNat_ofNat]

/-! ## What a register write changes -/

theorem writeRegFile_length (n : Nat) (x : List (List (Option Word))) (k : RegIx) (v : Nat) :
    (writeRegFile n x k v).length = x.length := by simp [writeRegFile]

theorem writeRegs_length (n : Nat) (x : List (List (Option Word))) (ws : List (RegIx × Nat)) :
    (writeRegs n x ws).length = x.length := by
  induction ws generalizing x with
  | nil => rfl
  | cons w ws ih => exact (ih _).trans (writeRegFile_length n x w.1 w.2)

/-- A register write gives a register of W/32 words and leaves the others theirs. -/
theorem writeRegFile_rows (n : Nat) (x : List (List (Option Word))) (k : RegIx) (v : Nat)
    (h : ∀ r ∈ x, r.length = n) : ∀ r ∈ writeRegFile n x k v, r.length = n := by
  intro r hr
  rcases List.mem_or_eq_of_mem_set hr with hr | rfl
  · exact h r hr
  · simp

theorem writeRegs_rows (n : Nat) (x : List (List (Option Word))) (ws : List (RegIx × Nat))
    (h : ∀ r ∈ x, r.length = n) : ∀ r ∈ writeRegs n x ws, r.length = n := by
  induction ws generalizing x with
  | nil => exact h
  | cons w ws ih => exact ih _ (writeRegFile_rows n x w.1 w.2 h)

/-- The registers a command does not write keep their rows. -/
theorem writeRegFile_other (n : Nat) (x : List (List (Option Word))) (k : RegIx) (v i : Nat) (h : i ≠ k.val) :
    (writeRegFile n x k v).getD i [] = x.getD i [] := by
  simp [writeRegFile, List.getElem?_set_ne h.symm]

theorem writeRegs_other (n : Nat) (x : List (List (Option Word))) (ws : List (RegIx × Nat)) (i : Nat)
    (h : ∀ w ∈ ws, i ≠ w.1.val) : (writeRegs n x ws).getD i [] = x.getD i [] := by
  induction ws generalizing x with
  | nil => rfl
  | cons w ws ih =>
    have h1 := ih (writeRegFile n x w.1 w.2) fun a ha => h a (List.mem_cons_of_mem _ ha)
    exact h1.trans (writeRegFile_other n x w.1 w.2 i (h w List.mem_cons_self))

/-- The written register holds the words of the value. -/
theorem writeRegFile_same (n : Nat) (x : List (List (Option Word))) (k : RegIx) (v : Nat) (h : k.val < x.length) :
    (writeRegFile n x k v).getD k.val [] = (natToWords n v).map some := by
  simp [writeRegFile, List.getElem?_set_self h]

/-! ## Reading a register -/

/-- An operand is below 2^W (00_scope.md R11). -/
theorem State.operand_lt (s : State) (f : Nat) (k : RegIx) : s.operand f k < 2 ^ s.params.width := by
  have h := wordsToNat_lt ((List.range s.params.wwords).map (s.readWord f k.val))
  simpa [State.operand, Params.width] using h

/-- A written register reads the same through every operand field, whatever the free values are. -/
theorem State.operand_written (s : State) (f g : Nat) (k : RegIx) (h : s.written k.val = true) :
    s.operand f k = s.operand g k := by
  unfold State.operand
  congr 1
  refine List.map_congr_left fun j hj => ?_
  have hj := List.all_eq_true.mp h j hj
  obtain ⟨w, hw⟩ := Option.isSome_iff_exists.mp hj
  simp [State.readWord, hw]

/-- Some given register has an unwritten word. -/
theorem State.allWritten_eq_false (s : State) (ks : List RegIx) :
    s.allWritten ks = false ↔ ∃ k ∈ ks, ∃ j, j < s.params.wwords ∧ s.word k.val j = none := by
  rw [Bool.eq_false_iff, ne_eq]
  simp [State.allWritten, State.written]

/-- When sources may not be read: an instance that faults, and an unwritten word. -/
theorem State.readable_eq_false (s : State) (ks : List RegIx) :
    s.readable ks = false ↔ s.params.unwritten = .fault ∧ s.allWritten ks = false := by
  unfold State.readable
  cases s.params.unwritten <;> cases s.allWritten ks <;> decide

/-- Registers with the same rows read the same. -/
theorem State.operand_congr (s t : State) (f : Nat) (k : RegIx) (hp : t.params = s.params)
    (hx : ∀ j, t.word k.val j = s.word k.val j) (hf : t.freeCount = s.freeCount) : t.operand f k = s.operand f k := by
  have e : t.readWord f k.val = s.readWord f k.val := funext fun j => by simp only [State.readWord, hx, hf]
  rw [State.operand, State.operand, e, hp]

/-- A register that holds exactly the words of `v` is written and reads as `v mod 2^W`. -/
theorem State.operand_of_row (t : State) (f : Nat) (k : RegIx) (v : Nat)
    (h : t.x.getD k.val [] = (natToWords t.params.wwords v).map some) :
    t.written k.val = true ∧ t.operand f k = v % 2 ^ t.params.width := by
  have hw : ∀ j (hj : j < t.params.wwords),
      t.word k.val j = some ((natToWords t.params.wwords v)[j]'(by simpa using hj)) := by
    intro j hj
    rw [State.word, h]
    simp [hj]
  constructor
  · refine List.all_eq_true.mpr fun j hj => ?_
    simp [hw j (List.mem_range.mp hj)]
  · have e : (List.range t.params.wwords).map (t.readWord f k.val) = natToWords t.params.wwords v := by
      apply List.ext_getElem
      · simp
      · intro j h1 h2
        simp [State.readWord, hw j (by simpa using h1)]
    rw [State.operand, e, wordsToNat_natToWords, Params.width]

/-! ## Bus writes of one word -/

theorem State.setWord_word_other (s : State) (k j : Nat) (w : Word) (i l : Nat) (h : ¬(i = k ∧ l = j)) :
    (s.setWord k j w).word i l = s.word i l := by
  by_cases hi : i = k
  · subst hi
    have hl : l ≠ j := fun e => h ⟨rfl, e⟩
    by_cases hk : i < s.x.length
    · simp [State.word, List.getElem?_set_self hk, List.getElem?_set_ne hl.symm]
    · simp [State.word, List.set_eq_of_length_le (Nat.le_of_not_lt hk)]
  · simp [State.word, List.getElem?_set_ne (Ne.symm hi)]

theorem State.setWord_word_same (s : State) (h : s.RegsWf) (k j : Nat) (w : Word) (hk : k < s.params.nreg)
    (hj : j < s.params.wwords) : (s.setWord k j w).word k j = some w := by
  have hk' : k < s.x.length := by rw [h.1]; exact hk
  have hl : (s.x[k]).length = s.params.wwords := h.2 _ (List.getElem_mem hk')
  simp [State.word, hk', hl, hj]

/-- The written word is the new one, or the file has no such word and nothing changed. -/
theorem State.setWord_word_or (s : State) (k j : Nat) (w : Word) :
    (s.setWord k j w).word k j = some w ∨ (s.setWord k j w).word k j = s.word k j := by
  simp only [State.word, State.setWord]
  rcases Nat.lt_or_ge k s.x.length with hk | hk
  · simp only [List.getD_eq_getElem?_getD, List.getElem?_set, hk, Option.getD_some, ↓reduceIte]
    rcases Nat.lt_or_ge j ((s.x[k]?.getD []).length) with hj | hj
    · left; simp [hj]
    · right; simp [Nat.not_lt.mpr hj]
  · right; rw [List.set_eq_of_length_le hk]

/-! ## The shape of the register file is kept (log 20) -/

theorem State.complete_regsWf (r : CmdResult) (s : State) (h : s.RegsWf) : (s.complete r).RegsWf := by
  cases r with
  | ok ws b =>
    exact ⟨(writeRegs_length _ _ _).trans h.1, writeRegs_rows _ _ _ h.2⟩
  | err c => exact h

theorem State.setWord_regsWf (s : State) (k j : Nat) (w : Word) (h : s.RegsWf) : (s.setWord k j w).RegsWf := by
  by_cases hk : k < s.x.length
  · refine ⟨by simpa using h.1, fun r hr => ?_⟩
    rcases List.mem_or_eq_of_mem_set hr with hr | rfl
    · exact h.2 r hr
    · have := h.2 _ (List.getElem_mem hk)
      simpa [hk] using this
  · have e : (s.setWord k j w).x = s.x := by simp [List.set_eq_of_length_le (Nat.le_of_not_lt hk)]
    exact ⟨by rw [e]; exact h.1, by rw [e]; exact h.2⟩

theorem State.resetOf_regsWf (p : Params) : (State.resetOf p).RegsWf := by
  constructor
  · simp [State.resetOf]
  · intro r hr
    rw [(List.mem_replicate.mp hr).2]
    simp [State.resetOf]

end Sys2Proof.Machine
end

