-- ==== Sys2Proof/Laws/Bus.lean ====
section
/-! SUPPORT. The spec lemmas of the bus and of the step: what each offset of the aperture does, and which event a step
runs. -/

namespace Sys2Proof.Machine

/-! ## The step runs the first pending event -/

theorem step_access (s : State) (a : Access) (es : List Event) (h : s.events = .access a :: es) :
    step s = hostAccess a { s with events := es } := by
  simp only [step, nextEvent, h, runEvent]

theorem step_bus (s : State) (k : BusKind) (addr size : Nat) (v : Word) (es : List Event)
    (h : s.events = .bus k addr size v :: es) : step s = busAccess k addr size v { s with events := es } := by
  simp only [step, nextEvent, h, runEvent]

theorem step_engine (s : State) (es : List Event) (h : s.events = .engine :: es) :
    step s = engineStep { s with events := es } := by
  simp only [step, nextEvent, h, runEvent]

theorem step_rst (s : State) (es : List Event) (h : s.events = .rst :: es) :
    step s = .next ({ s with events := es } : State).powerOnReset := by
  simp only [step, nextEvent, h, runEvent]

theorem step_nil (s : State) (h : s.events = []) : step s = engineStep s := by
  simp only [step, nextEvent, h]

theorem engineStep_idle (s : State) (h : s.busy = false) : engineStep s = .next s := by
  simp [engineStep, h]

theorem engineStep_ok (s : State) (i : Instr) (h : s.busy = true) (hd : decode s.L = .ok i) :
    engineStep s = exec i s := by
  simp [engineStep, h, hd]

theorem engineStep_illegal (s : State) (e : DecodeError) (h : s.busy = true) (hd : decode s.L = .error e) :
    engineStep s = .next (s.complete (.err .illegal)) := by
  simp [engineStep, h, hd]

/-! ## Accesses -/

theorem hostAccess_unsupported (a : Access) (s : State) (h : a.supported = false) :
    hostAccess a s = .next (s.accessError a.kind) := by
  simp [hostAccess, h]

/-- An aligned 32-bit read in the aperture, as an event. -/
theorem step_read (s : State) (off : Nat) (es : List Event) (h : s.events = hostRD off :: es) (ha : off % 4 = 0)
    (hl : off < 0x4000) : step s = hostRead off { s with events := es } := by
  rw [step_access s _ es h, hostAccess, if_pos (by simp [Access.supported, ha, hl])]

/-- An aligned 32-bit write in the aperture, as an event. -/
theorem step_write (s : State) (off : Nat) (v : Word) (es : List Event) (h : s.events = hostWR off v :: es)
    (ha : off % 4 = 0) (hl : off < 0x4000) : step s = .next (hostWrite off v { s with events := es }) := by
  rw [step_access s _ es h, hostAccess, if_pos (by simp [Access.supported, ha, hl])]

/-! ## The map of the aperture (20_memory.md R37 to R39) -/

theorem regionOf_window (p : Params) (i j : Nat) (hp : p.Legal) (hi : i < p.nreg) (hj : j < p.wwords) :
    regionOf p (windowOffset i j) = .window i j := by
  obtain ⟨_, h1, _, _, _⟩ := hp
  have e1 : (0x1000 + 0x200 * i + 4 * j - 0x1000) / 0x200 = i := by omega
  have e2 : (0x1000 + 0x200 * i + 4 * j - 0x1000) % 0x200 / 4 = j := by omega
  unfold regionOf windowOffset
  rw [if_neg (by omega), if_neg (by omega), if_neg (by omega), if_neg (by omega), if_neg (by omega),
    if_neg (by omega), if_neg (by omega)]
  simp only [e1, e2]
  rw [if_pos ⟨hi, hj⟩]

/-- A window region is the word at that offset. -/
theorem regionOf_eq_window (p : Params) (off i j : Nat) (ha : off % 4 = 0) (h : regionOf p off = .window i j) :
    i < p.nreg ∧ j < p.wwords ∧ off = windowOffset i j := by
  unfold regionOf at h
  repeat' split at h
  all_goals try cases h
  dsimp only at h
  split at h
  · rename_i _ hw
    injection h with h1 h2
    subst h1 h2
    exact ⟨hw.1, hw.2, by unfold windowOffset; omega⟩
  · cases h

theorem windowOffset_aligned (i j : Nat) : windowOffset i j % 4 = 0 := by unfold windowOffset; omega

theorem windowOffset_lt (p : Params) (i j : Nat) (hp : p.Legal) (hi : i < p.nreg) (hj : j < p.wwords) :
    windowOffset i j < 0x4000 := by
  obtain ⟨_, h1, _, h2, _⟩ := hp
  unfold windowOffset
  omega

/-! ## The registers (20_memory.md R48) -/

theorem hostRead_id (s : State) : hostRead 0x0000 s = .next (s.answer idWord) := rfl
theorem hostRead_config (s : State) : hostRead 0x0004 s = .next (s.answer (configWord s.params)) := rfl
theorem hostRead_ctrl (s : State) : hostRead 0x0008 s = .next (s.answer s.ctrlWord) := rfl
theorem hostRead_cmd (s : State) : hostRead 0x000C s = .next (s.answer s.L) := rfl
theorem hostRead_status (s : State) : hostRead 0x0010 s = .next (s.answer s.statusWord) := rfl
theorem hostRead_clear (s : State) : hostRead 0x0014 s = .next (s.answer 0) := rfl

theorem hostWrite_id (v : Word) (s : State) : hostWrite 0x0000 v s = s.noAnswer := rfl
theorem hostWrite_config (v : Word) (s : State) : hostWrite 0x0004 v s = s.noAnswer := rfl
theorem hostWrite_ctrl (v : Word) (s : State) : hostWrite 0x0008 v s = (writeCtrl v s).noAnswer := rfl
theorem hostWrite_cmd (v : Word) (s : State) : hostWrite 0x000C v s = (writeCmd v s).noAnswer := rfl
theorem hostWrite_status (v : Word) (s : State) : hostWrite 0x0010 v s = s.noAnswer := rfl
theorem hostWrite_clear (v : Word) (s : State) : hostWrite 0x0014 v s = (writeClear v s).noAnswer := rfl

theorem hostRead_window (s : State) (i j : Nat) (hp : s.params.Legal) (hi : i < s.params.nreg)
    (hj : j < s.params.wwords) : hostRead (windowOffset i j) s = readWindow i j s := by
  rw [hostRead, regionOf_window s.params i j hp hi hj]

theorem hostWrite_window (s : State) (i j : Nat) (v : Word) (hp : s.params.Legal) (hi : i < s.params.nreg)
    (hj : j < s.params.wwords) : hostWrite (windowOffset i j) v s = (writeWindow i j v s).noAnswer := by
  rw [hostWrite, regionOf_window s.params i j hp hi hj]

/-! ## What a Host access can do, said once -/

/-- A Host read changes nothing but the answer, ACCERR and the count of free values. -/
theorem hostRead_next (off : Nat) (s t : State) (h : hostRead off s = .next t) :
    t = { s with reply := t.reply, accerr := t.accerr, freeCount := t.freeCount } := by
  unfold hostRead at h
  split at h
  case h_7 i j =>
    unfold readWindow at h
    split at h
    · cases h; rfl
    · split at h <;> cases h; rfl
  all_goals cases h; rfl

/-- A Host write is one of these. -/
theorem hostWrite_cases (off : Nat) (v : Word) (s : State) :
    hostWrite off v s = s.noAnswer ∨ hostWrite off v s = (writeCtrl v s).noAnswer
    ∨ hostWrite off v s = (writeCmd v s).noAnswer ∨ hostWrite off v s = (writeClear v s).noAnswer
    ∨ (∃ i j, regionOf s.params off = .window i j ∧ hostWrite off v s = (writeWindow i j v s).noAnswer)
    ∨ hostWrite off v s = s.accessError .write := by
  unfold hostWrite
  split <;> simp_all

/-- A Host access goes on with an access error, a read or a write. -/
theorem hostAccess_cases (a : Access) (s : State) :
    hostAccess a s = .next (s.accessError a.kind)
    ∨ (a.supported = true ∧ a.kind = .read ∧ hostAccess a s = hostRead a.off s)
    ∨ (a.supported = true ∧ a.kind = .write ∧ hostAccess a s = .next (hostWrite a.off a.data s)) := by
  unfold hostAccess
  cases hs : a.supported <;> cases hk : a.kind <;> simp

/-- The ways a step goes on, by the first pending event. An access on the system bus is the access at its offset, or
nothing. -/
theorem step_cases (s : State) :
    ((s.events = [] ∨ ∃ es, s.events = .engine :: es) ∧ step s = engineStep { s with events := s.events.tail })
    ∨ (∃ a es, (s.events = .access a :: es ∨ (∃ addr, s.events = .bus a.kind addr a.size a.data :: es
          ∧ s.params.base ≤ addr ∧ addr < s.params.base + 0x4000 ∧ a.off = addr - s.params.base))
        ∧ step s = hostAccess a { s with events := es })
    ∨ (∃ es, s.events = .rst :: es ∧ step s = .next ({ s with events := es } : State).powerOnReset)
    ∨ (∃ k addr size v es, s.events = .bus k addr size v :: es ∧ step s = .next { s with events := es }) := by
  rcases hs : s.events with _ | ⟨e, es⟩
  · left
    refine ⟨.inl rfl, ?_⟩
    rw [step_nil s hs]
    congr 1
    rw [List.tail_nil, ← hs]
  · cases e with
    | engine => exact .inl ⟨.inr ⟨es, rfl⟩, step_engine s es hs⟩
    | access a => exact .inr (.inl ⟨a, es, .inl rfl, step_access s a es hs⟩)
    | rst => exact .inr (.inr (.inl ⟨es, rfl, step_rst s es hs⟩))
    | bus k addr size v =>
      have h := step_bus s k addr size v es hs
      unfold busAccess at h
      split at h
      · rename_i hb
        exact .inr (.inl ⟨⟨k, addr - s.params.base, size, v⟩, es, .inr ⟨addr, rfl, hb.1, hb.2, rfl⟩, h⟩)
      · exact .inr (.inr (.inr ⟨k, addr, size, v, es, rfl, h⟩))

/-! ## Inversion of the Engine's step and of a CTRL write -/

/-- How the Engine's step goes on. -/
theorem engineStep_next_cases (s t : State) (h : engineStep s = .next t) :
    (s.busy = false ∧ t = s) ∨ (s.busy = true ∧ ((∃ i, decode s.L = .ok i ∧ exec i s = .next t) ∨
      ((∃ e, decode s.L = .error e) ∧ t = s.complete (.err .illegal)))) := by
  cases hb : s.busy
  · rw [engineStep_idle s hb] at h; cases h; exact .inl ⟨rfl, rfl⟩
  · right; refine ⟨rfl, ?_⟩
    cases hd : decode s.L with
    | ok i => rw [engineStep_ok s i hb hd] at h; exact .inl ⟨i, rfl, h⟩
    | error e => rw [engineStep_illegal s e hb hd] at h; cases h; exact .inr ⟨⟨e, rfl⟩, rfl⟩

/-- A CTRL write is a soft reset, a new IE, or a new IE and an abort of the command in progress. -/
theorem writeCtrl_cases (v s) : writeCtrl v s = s.softReset ∨ (∃ b, writeCtrl v s = { s with ie := b }) ∨
   (∃ b, s.busy = true ∧ writeCtrl v s = ({ s with ie := b } : State).complete (.err .aborted)) := by
  unfold writeCtrl State.abort
  split; · exact .inl rfl
  simp only
  split
  · split
    · rename_i hb; exact .inr (.inr ⟨_, hb, rfl⟩)
    · exact .inr (.inl ⟨_, rfl⟩)
  · exact .inr (.inl ⟨_, rfl⟩)

/-- Only offset 0x0008 is CTRL. -/
theorem regionOf_eq_ctrl (p : Params) (off : Nat) (h : regionOf p off = .ctrl) : off = 0x0008 := by
  unfold regionOf at h
  repeat' split at h
  all_goals first | assumption | cases h | (dsimp only at h; split at h <;> cases h)

/-! ## Runs compose -/

theorem runsTo_append (n m : Nat) (s t u : State) (h1 : RunsTo n s t) (h2 : RunsTo m t u) : RunsTo (n + m) s u := by
  induction n generalizing s with
  | zero => cases h1; simpa using h2
  | succ n ih =>
    obtain ⟨v, hv, h⟩ := h1
    rw [Nat.succ_add]
    exact ⟨v, hv, ih v h⟩

end Sys2Proof.Machine
end

