-- ==== Sys2Proof/Laws/Command.lean ====
section
/-! SUPPORT. What a command can do, said once: the cases of the common frame, and for every command the result its
next state comes from. -/

namespace Sys2Proof.Machine

/-- The three ways the common frame of a command ends. -/
theorem State.command_cases (used srcs : List RegIx) (r : CmdResult) (s : State) :
    ((∃ k ∈ used, s.params.nreg ≤ k.val) ∧ s.command used srcs r = .next (s.complete (.err .badreg)))
    ∨ ((∀ k ∈ used, k.val < s.params.nreg) ∧ ((s.readable srcs = true
        ∧ s.command used srcs r = .next ((s.afterRead srcs).complete r))
      ∨ (s.readable srcs = false ∧ s.command used srcs r = .fault .unwrittenOperand))) := by
  unfold State.command
  cases hu : used.any (fun k => s.params.nreg ≤ k.val)
  · refine .inr ⟨by simpa using hu, ?_⟩
    cases hr : s.readable srcs
    · exact .inr ⟨rfl, by simp⟩
    · exact .inl ⟨rfl, by simp⟩
  · exact .inl ⟨by simpa using hu, by simp⟩

/-- A command whose registers exist and whose sources may be read completes with its result. -/
theorem State.command_runs (used srcs : List RegIx) (r : CmdResult) (s : State)
    (hu : ∀ k ∈ used, k.val < s.params.nreg) (hr : s.readable srcs = true) :
    s.command used srcs r = .next ((s.afterRead srcs).complete r) := by
  have hu : used.any (fun k => s.params.nreg ≤ k.val) = false := by simpa using hu
  simp [State.command, hu, hr]

/-- A command whose registers exist and one of whose sources may not be read is the fault of R32. -/
theorem State.command_faults (used srcs : List RegIx) (r : CmdResult) (s : State)
    (hu : ∀ k ∈ used, k.val < s.params.nreg) (hr : s.readable srcs = false) :
    s.command used srcs r = .fault .unwrittenOperand := by
  have hu : used.any (fun k => s.params.nreg ≤ k.val) = false := by simpa using hu
  simp [State.command, hu, hr]

/-- A command with a register at or above NREG completes with BADREG. -/
theorem State.command_badreg (used srcs : List RegIx) (r : CmdResult) (s : State)
    (hu : ∃ k ∈ used, s.params.nreg ≤ k.val) : s.command used srcs r = .next (s.complete (.err .badreg)) := by
  have hu : used.any (fun k => s.params.nreg ≤ k.val) = true := by simpa using hu
  simp [State.command, hu]

/-! ## The bodies, as one function -/

/-- The result a command's body gives on the operands of a state (44_control.md R80), without the common checks. -/
def bodyResult (i : Instr) (s : State) : CmdResult :=
  match i with
  | .nop => .ok [] false
  | .montmul rd ra rb rc => montmulResult rd s.params.width (s.opC rc) (s.opA ra) (s.opB rb)
  | .montr2 rd rc => montr2Result rd s.params.width (s.opC rc)
  | .tomont rd ra rc => tomontResult rd s.params.width (s.opC rc) (s.opA ra)
  | .frommont rd ra rc => frommontResult rd s.params.width (s.opC rc) (s.opA ra)
  | .modred rd ra rc => modredResult rd (s.opC rc) (s.opA ra)
  | .modmul rd ra rb rc => modmulResult rd (s.opC rc) (s.opA ra) (s.opB rb)
  | .modexp rd ra rb rc => modexpResult rd (s.opC rc) (s.opA ra) (s.opB rb)
  | .gcd rd ra rb => gcdResult rd (s.opA ra) (s.opB rb)
  | .xgcd rd re ra rb => xgcdResult rd re s.params.width (s.opA ra) (s.opB rb)
  | .modinv rd ra rc => modinvResult rd (s.opA ra) (s.opC rc)
  | .rmwit ra rc => rmwitResult (s.opA ra) (s.opC rc)

/-- A well-formed command is the common frame around its body. -/
theorem exec_eq_command (i : Instr) (s : State) (h : i.wellFormed = true) :
    exec i s = s.command i.usedRegs i.sources (bodyResult i s) := by
  cases i with
  | xgcd rd re ra rb =>
    have hne : rd ≠ re := by simpa [Instr.wellFormed] using h
    simp [exec, execXgcd, hne, Instr.usedRegs, Instr.sources, bodyResult]
  | _ => rfl

/-- A term of XGCD with one register for both results completes with ILLEGAL. -/
theorem exec_illFormed (i : Instr) (s : State) (h : i.wellFormed = false) :
    exec i s = .next (s.complete (.err .illegal)) := by
  cases i with
  | xgcd rd re ra rb =>
    have he : rd = re := by simpa [Instr.wellFormed] using h
    simp [exec, execXgcd, he]
  | _ => simp [Instr.wellFormed] at h

/-- Everything a command can do: it fails a common check, it completes with its body's result after reading its
sources, or it is the fault of R32. -/
theorem exec_cases (i : Instr) (s : State) :
    (∃ c, (i.wellFormed = false ∧ c = .illegal
        ∨ i.wellFormed = true ∧ (∃ k ∈ i.usedRegs, s.params.nreg ≤ k.val) ∧ c = .badreg)
      ∧ exec i s = .next (s.complete (.err c)))
    ∨ (s.Runs i ∧ exec i s = .next ((s.afterRead i.sources).complete (bodyResult i s)))
    ∨ (s.PassesChecks i ∧ s.readable i.sources = false ∧ exec i s = .fault .unwrittenOperand) := by
  cases hw : i.wellFormed
  · exact .inl ⟨_, .inl ⟨rfl, rfl⟩, exec_illFormed i s hw⟩
  · rw [exec_eq_command i s hw]
    rcases s.command_cases i.usedRegs i.sources (bodyResult i s) with ⟨hu, e⟩ | ⟨hu, ⟨hr, e⟩ | ⟨hr, e⟩⟩
    · exact .inl ⟨_, .inr ⟨rfl, hu, rfl⟩, e⟩
    · exact .inr (.inl ⟨⟨⟨hw, hu⟩, hr⟩, e⟩)
    · exact .inr (.inr ⟨⟨hw, hu⟩, hr, e⟩)

/-- The same of a next state. -/
theorem exec_next_cases (i : Instr) (s t : State) (h : exec i s = .next t) :
    (∃ c, (c = .illegal ∨ c = .badreg) ∧ t = s.complete (.err c))
    ∨ (s.Runs i ∧ t = (s.afterRead i.sources).complete (bodyResult i s)) := by
  rcases exec_cases i s with ⟨c, hc, e⟩ | ⟨hr, e⟩ | ⟨_, _, e⟩
  · exact .inl ⟨c, by tauto, Host.Outcome.next.inj (h.symm.trans e)⟩
  · exact .inr ⟨hr, Host.Outcome.next.inj (h.symm.trans e)⟩
  · rw [e] at h; cases h

/-- A body stages writes to the command's destinations only. -/
theorem bodyResult_writes (i : Instr) (s : State) (ws : List (RegIx × Nat)) (b : Bool)
    (h : bodyResult i s = .ok ws b) : ws.map Prod.fst = i.dests := by
  cases i <;>
    simp only [bodyResult, montmulResult, montr2Result, tomontResult, frommontResult, modredResult, modmulResult,
      modexpResult, gcdResult, xgcdResult, modinvResult, rmwitResult] at h <;>
    (try split at h) <;> (try split at h) <;> (try split at h) <;> cases h <;> rfl

/-- A body's result depends on the instance, the source registers and the number of the next free value. -/
theorem bodyResult_congr (i : Instr) (s s' : State) (hp : s.params = s'.params) (hf : s.freeCount = s'.freeCount)
    (h : ∀ k ∈ i.sources, ∀ j, s.word k.val j = s'.word k.val j) : bodyResult i s' = bodyResult i s := by
  have ho := fun f k hk => State.operand_congr s s' f k hp.symm (fun j => (h k hk j).symm) hf.symm
  cases i <;> simp [Instr.sources] at ho <;> simp [bodyResult, State.opA, State.opB, State.opC, ho, hp]

/-- A command neither reads nor writes the bus answer and the pending events. -/
theorem exec_reply_events (i : Instr) (s u : State) (r : Option Word) (es : List Event) (h : exec i s = .next u) :
    exec i { s with reply := r, events := es } = .next { u with reply := r, events := es } := by
  have hb : bodyResult i { s with reply := r, events := es } = bodyResult i s :=
    bodyResult_congr i s { s with reply := r, events := es } rfl rfl (fun _ _ _ => rfl)
  have hcomp : ∀ (s : State) c, State.complete c { s with reply := r, events := es } = { s.complete c with reply := r, events := es } := by
    intro s c; cases c <;> rfl
  cases hw : i.wellFormed
  · rw [exec_illFormed i s hw] at h; cases h
    rw [exec_illFormed i _ hw]; rfl
  · rw [exec_eq_command i s hw] at h
    rw [exec_eq_command i _ hw, hb]
    rcases s.command_cases i.usedRegs i.sources (bodyResult i s) with ⟨hu, e⟩ | ⟨hu, ⟨hr, e⟩ | ⟨_, e⟩⟩
    · rw [e] at h; cases h
      exact State.command_badreg i.usedRegs i.sources (bodyResult i s) { s with reply := r, events := es } hu
    · rw [e] at h; cases h
      exact (State.command_runs i.usedRegs i.sources (bodyResult i s) { s with reply := r, events := es } hu
        hr).trans (congrArg Host.Outcome.next (hcomp (s.afterRead i.sources) (bodyResult i s)))
    · rw [e] at h; cases h

end Sys2Proof.Machine
end

