-- ==== Sys2Proof/Laws/Completion.lean ====
section
/-! SUPPORT. The spec lemmas of completion in the vocabulary of claims (Safety.lean): what a command that runs its body
ends in, for an error, for a flag, and for one or two register writes. -/

namespace Sys2Proof.Machine

/-- A command that runs its body completes with the body's result. -/
theorem exec_runs (i : Instr) (s : State) (h : s.Runs i) :
    exec i s = .next ((s.afterRead i.sources).complete (bodyResult i s)) := by
  rw [exec_eq_command i s h.1.1, State.command_runs _ _ _ _ h.1.2 h.2]

@[simp] theorem afterRead_allWritten (s : State) (ks : List RegIx) (h : s.allWritten ks = true) :
    s.afterRead ks = s := by simp [State.afterRead, h]

/-- Reading sources changes nothing but the count of free values. -/
theorem completes_afterRead (s : State) (ks : List RegIx) (r : CmdResult) :
    Completes s ((s.afterRead ks).complete r) ((s.afterRead ks).complete r).result
      ((s.afterRead ks).complete r).errcode := by
  simp [Completes]

theorem fails_afterRead (s : State) (ks : List RegIx) (c : ErrCode) :
    Fails s ((s.afterRead ks).complete (.err c)) c := by
  simp [Fails, Completes]

theorem fails_complete (s : State) (c : ErrCode) : Fails s (s.complete (.err c)) c := by
  simp [Fails, Completes]

theorem completesWithFlag_afterRead (s : State) (ks : List RegIx) (b : Bool) :
    CompletesWithFlag s ((s.afterRead ks).complete (.ok [] b)) b := by
  simp [CompletesWithFlag, Completes, writeRegs]

/-- A completion leaves the registers it does not write. -/
theorem keepsOtherRegs_complete (s : State) (ks ds : List RegIx) (ws : List (RegIx × Nat)) (b : Bool)
    (h : ws.map Prod.fst = ds) : KeepsOtherRegs s ((s.afterRead ks).complete (.ok ws b)) ds := by
  intro i j hi
  subst h
  have := writeRegs_other s.params.wwords s.x ws i fun w hw => hi w.1 (List.mem_map_of_mem hw)
  rw [State.word, State.word]
  simp only [State.complete_ok_x, State.afterRead_x, State.afterRead_params, this]

/-- One register write of a value below 2^W. -/
theorem completesWith_afterRead (s : State) (ks : List RegIx) (k : RegIx) (v : Nat) (h : s.RegsWf)
    (hk : k.val < s.params.nreg) (hv : v < 2 ^ s.params.width) :
    CompletesWith s ((s.afterRead ks).complete (.ok [(k, v)] false)) k v := by
  have hrow : ((s.afterRead ks).complete (.ok [(k, v)] false)).x.getD k.val []
      = (natToWords ((s.afterRead ks).complete (.ok [(k, v)] false)).params.wwords v).map some := by
    simp only [State.complete_ok_x, State.complete_params, State.afterRead_params, State.afterRead_x, writeRegs,
      List.foldl_cons, List.foldl_nil]
    exact writeRegFile_same _ _ _ _ (by rw [h.1]; exact hk)
  refine ⟨completes_afterRead s ks _, (State.operand_of_row _ 0 k v hrow).1, fun f => ?_,
    keepsOtherRegs_complete s ks [k] [(k, v)] false rfl⟩
  rw [(State.operand_of_row _ f k v hrow).2]
  exact Nat.mod_eq_of_lt hv

/-- Two register writes to different registers. -/
theorem two_writes (s : State) (ks : List RegIx) (k l : RegIx) (v w : Nat) (h : s.RegsWf) (hkl : k ≠ l)
    (hk : k.val < s.params.nreg) (hl : l.val < s.params.nreg) :
    ∀ f, let t := (s.afterRead ks).complete (.ok [(k, v), (l, w)] false)
      t.written k.val = true ∧ t.written l.val = true
        ∧ t.operand f k = v % 2 ^ s.params.width ∧ t.operand f l = w % 2 ^ s.params.width := by
  intro f
  have hx : ((s.afterRead ks).complete (.ok [(k, v), (l, w)] false)).x
      = writeRegFile s.params.wwords (writeRegFile s.params.wwords s.x k v) l w := rfl
  have hlen := writeRegFile_length s.params.wwords s.x k v
  have hrk : ((s.afterRead ks).complete (.ok [(k, v), (l, w)] false)).x.getD k.val []
      = (natToWords s.params.wwords v).map some := by
    rw [hx, writeRegFile_other _ _ _ _ _ (fun e => hkl (Fin.ext e)),
      writeRegFile_same _ _ _ _ (by rw [h.1]; exact hk)]
  have hrl : ((s.afterRead ks).complete (.ok [(k, v), (l, w)] false)).x.getD l.val []
      = (natToWords s.params.wwords w).map some := by
    rw [hx, writeRegFile_same _ _ _ _ (by rw [hlen, h.1]; exact hl)]
  have h1 := State.operand_of_row _ f k v hrk
  have h2 := State.operand_of_row _ f l w hrl
  exact ⟨h1.1, h2.1, h1.2, h2.2⟩

end Sys2Proof.Machine
end

