-- ==== Sys2Proof/Laws/Fields.lean ====
section
/-! SUPPORT. The fields of a packed command word, and every word as the packing of its fields (30_encoding.md R50). -/

namespace Sys2Proof

@[simp] theorem ixOf_ixBits (k : RegIx) : ixOf (ixBits k) = k := rfl
@[simp] theorem ixBits_ixOf (f : BitVec 4) : ixBits (ixOf f) = f := rfl

@[simp] theorem ixBits_zero : ixBits 0 = 0#4 := rfl
@[simp] theorem ixOf_zero : ixOf 0#4 = 0 := rfl

/-- Bit `i` of a packed word, by the field it lies in. -/
theorem pack_getLsbD (op : BitVec 8) (rd re ra rb rc : RegIx) (i : Nat) :
    (packCommand op rd re ra rb rc).getLsbD i =
      if i < 8 then op.getLsbD i else if i < 12 then (ixBits rd).getLsbD (i - 8)
      else if i < 16 then (ixBits re).getLsbD (i - 12) else if i < 20 then (ixBits ra).getLsbD (i - 16)
      else if i < 24 then (ixBits rb).getLsbD (i - 20) else if i < 28 then (ixBits rc).getLsbD (i - 24)
      else false := by
  simp only [packCommand, BitVec.getLsbD_append, BitVec.getLsbD_zero]
  repeat' split
  all_goals first | omega | rfl

/-- A field of a packed word, found by its bits. -/
theorem extract_pack (op : BitVec 8) (rd re ra rb rc : RegIx) (lo n : Nat) (f : BitVec n)
    (h : ∀ i < n, (packCommand op rd re ra rb rc).getLsbD (lo + i) = f.getLsbD i) :
    (packCommand op rd re ra rb rc).extractLsb' lo n = f := by
  refine BitVec.eq_of_getLsbD_eq fun i hi => ?_
  simp [hi, h i hi]

section
variable (op : BitVec 8) (rd re ra rb rc : RegIx)

@[simp] theorem opOf_pack : opOf (packCommand op rd re ra rb rc) = op := by
  refine extract_pack op rd re ra rb rc 0 8 _ fun i hi => ?_
  rw [pack_getLsbD]
  repeat' split
  all_goals first | omega | (congr 1; omega)
@[simp] theorem rdOf_pack : rdOf (packCommand op rd re ra rb rc) = ixBits rd := by
  refine extract_pack op rd re ra rb rc 8 4 _ fun i hi => ?_
  rw [pack_getLsbD]
  repeat' split
  all_goals first | omega | (congr 1; omega)
@[simp] theorem reOf_pack : reOf (packCommand op rd re ra rb rc) = ixBits re := by
  refine extract_pack op rd re ra rb rc 12 4 _ fun i hi => ?_
  rw [pack_getLsbD]
  repeat' split
  all_goals first | omega | (congr 1; omega)
@[simp] theorem raOf_pack : raOf (packCommand op rd re ra rb rc) = ixBits ra := by
  refine extract_pack op rd re ra rb rc 16 4 _ fun i hi => ?_
  rw [pack_getLsbD]
  repeat' split
  all_goals first | omega | (congr 1; omega)
@[simp] theorem rbOf_pack : rbOf (packCommand op rd re ra rb rc) = ixBits rb := by
  refine extract_pack op rd re ra rb rc 20 4 _ fun i hi => ?_
  rw [pack_getLsbD]
  repeat' split
  all_goals first | omega | (congr 1; omega)
@[simp] theorem rcOf_pack : rcOf (packCommand op rd re ra rb rc) = ixBits rc := by
  refine extract_pack op rd re ra rb rc 24 4 _ fun i hi => ?_
  rw [pack_getLsbD]
  repeat' split
  all_goals first | omega | (congr 1; omega)
@[simp] theorem rsvOf_pack : rsvOf (packCommand op rd re ra rb rc) = 0 := by
  refine extract_pack op rd re ra rb rc 28 4 _ fun i hi => ?_
  rw [pack_getLsbD]
  repeat' split
  all_goals first | omega | simp

end

/-- Every word is its seven fields side by side. -/
theorem word_eq_fields (c : Word) :
    c = rsvOf c ++ rcOf c ++ rbOf c ++ raOf c ++ reOf c ++ rdOf c ++ opOf c := by
  refine BitVec.eq_of_getLsbD_eq fun i hi => ?_
  simp only [BitVec.getLsbD_append, opOf, rdOf, reOf, raOf, rbOf, rcOf, rsvOf, BitVec.getLsbD_extractLsb']
  rcases Nat.lt_or_ge i 8 with h | h
  · simp [h]
  · repeat' split
    all_goals first
      | omega
      | (rw [decide_eq_true (by omega), Bool.true_and]; congr 1; omega)

/-- Two words with the same seven fields are one word. -/
theorem word_ext_fields (c d : Word) (h : opOf c = opOf d) (h0 : rdOf c = rdOf d) (h1 : reOf c = reOf d)
    (h2 : raOf c = raOf d) (h3 : rbOf c = rbOf d) (h4 : rcOf c = rcOf d) (h5 : rsvOf c = rsvOf d) : c = d := by
  rw [word_eq_fields c, word_eq_fields d, h, h0, h1, h2, h3, h4, h5]

/-- A word with RSV = 0 is the packing of its fields. -/
theorem word_eq_pack (c : Word) (h : rsvOf c = 0) :
    c = packCommand (opOf c) (ixOf (rdOf c)) (ixOf (reOf c)) (ixOf (raOf c)) (ixOf (rbOf c)) (ixOf (rcOf c)) := by
  conv_lhs => rw [word_eq_fields c, h]
  rfl

@[simp] theorem wordOfLanes_lanes (w : Word) :
    wordOfLanes (laneByte w 0) (laneByte w 1) (laneByte w 2) (laneByte w 3) = w := by
  refine BitVec.eq_of_getLsbD_eq fun i hi => ?_
  simp only [wordOfLanes, laneByte, BitVec.getLsbD_append, BitVec.getLsbD_extractLsb']
  repeat' split
  all_goals first
    | omega
    | (rw [decide_eq_true (by omega), Bool.true_and]; congr 1; omega)

/-- The decoder on a word's bytes is the decoder on the word. -/
@[simp] theorem decodeBytes_lanesOf (w : Word) : decodeBytes (lanesOf w) = decode w := by
  simp [decodeBytes, lanesOf]

end Sys2Proof
end

