-- ==== Sys2Proof/Laws/PerInstr.lean ====
section
/-! SUPPORT. Facts about every command as a piece of notation, one lemma per constructor (30_encoding.md R50, R51). -/

namespace Sys2Proof.Laws.EncodedFields

/-- The encoded word has the command's opcode in OP and 0 in RSV, and its unused fields are 0 (R51, R54). -/
def Statement (i : Instr) : Prop :=
  opOf (encode i) = i.opcode ∧ rsvOf (encode i) = 0 ∧ unusedFieldSet (encode i) = false

theorem nop : Statement .nop := by
  simp [Statement, encode, Instr.opcode, unusedFieldSet, fieldUse, ixBits]
theorem montmul (rd ra rb rc : RegIx) : Statement (.montmul rd ra rb rc) := by
  simp [Statement, encode, Instr.opcode, unusedFieldSet, fieldUse, ixBits]
theorem montr2 (rd rc : RegIx) : Statement (.montr2 rd rc) := by
  simp [Statement, encode, Instr.opcode, unusedFieldSet, fieldUse, ixBits]
theorem tomont (rd ra rc : RegIx) : Statement (.tomont rd ra rc) := by
  simp [Statement, encode, Instr.opcode, unusedFieldSet, fieldUse, ixBits]
theorem frommont (rd ra rc : RegIx) : Statement (.frommont rd ra rc) := by
  simp [Statement, encode, Instr.opcode, unusedFieldSet, fieldUse, ixBits]
theorem modred (rd ra rc : RegIx) : Statement (.modred rd ra rc) := by
  simp [Statement, encode, Instr.opcode, unusedFieldSet, fieldUse, ixBits]
theorem modmul (rd ra rb rc : RegIx) : Statement (.modmul rd ra rb rc) := by
  simp [Statement, encode, Instr.opcode, unusedFieldSet, fieldUse, ixBits]
theorem modexp (rd ra rb rc : RegIx) : Statement (.modexp rd ra rb rc) := by
  simp [Statement, encode, Instr.opcode, unusedFieldSet, fieldUse, ixBits]
theorem gcd (rd ra rb : RegIx) : Statement (.gcd rd ra rb) := by
  simp [Statement, encode, Instr.opcode, unusedFieldSet, fieldUse, ixBits]
theorem xgcd (rd re ra rb : RegIx) : Statement (.xgcd rd re ra rb) := by
  simp [Statement, encode, Instr.opcode, unusedFieldSet, fieldUse, ixBits]
theorem modinv (rd ra rc : RegIx) : Statement (.modinv rd ra rc) := by
  simp [Statement, encode, Instr.opcode, unusedFieldSet, fieldUse, ixBits]
theorem rmwit (ra rc : RegIx) : Statement (.rmwit ra rc) := by
  simp [Statement, encode, Instr.opcode, unusedFieldSet, fieldUse, ixBits]

end Sys2Proof.Laws.EncodedFields
end

