-- ==== Sys2Proof/Laws/Primality.lean ====
section
/-! SUPPORT. The spec lemmas of the witness check's two loops (43_primality.md R74, R75). -/

namespace Sys2Proof.Machine

/-- `splitTwos` takes out all factors two (R74). -/
theorem splitTwos_spec : ∀ fuel m, 0 < m → m < 2 ^ (fuel + 1) →
    m = 2 ^ (splitTwos fuel m).1 * (splitTwos fuel m).2 ∧ (splitTwos fuel m).2 % 2 = 1 := by
  intro fuel
  induction fuel with
  | zero => intro m h1 h2; simp [splitTwos]; omega
  | succ n ih =>
    intro m h1 h2
    unfold splitTwos
    split
    · rename_i he
      have ⟨a, b⟩ := ih (m / 2) (by omega) (by rw [pow_succ] at h2; omega)
      refine ⟨?_, b⟩
      simp only [pow_succ]
      have : m = 2 * (m / 2) := by omega
      conv_lhs => rw [this, a]
      ring
    · exact ⟨by simp, by simp; omega⟩

/-- The squaring loop succeeds exactly when one of the next `k` squarings hits n − 1 (R75). -/
theorem squareLoop_spec (n : Nat) (hn : 3 ≤ n) : ∀ k t, t ≠ 1 → t ≠ n - 1 →
    (squareLoop n k t = true ↔ ∃ r, r < k ∧ t ^ (2 ^ (r + 1)) % n = n - 1) := by
  intro k
  induction k with
  | zero => intro t _ _; simp [squareLoop]
  | succ k ih =>
    intro t h1 h2
    have hsq : ∀ r, (t * t % n) ^ (2 ^ r) % n = t ^ (2 ^ (r + 1)) % n := by
      intro r
      rw [← Nat.pow_mod, ← pow_two, ← pow_mul, pow_succ, mul_comm 2]
    simp only [squareLoop]
    have h0 := hsq 0
    simp only [pow_zero, pow_one, Nat.mod_mod, zero_add] at h0
    split
    · rename_i h; simp only [true_iff]; exact ⟨0, by omega, by rw [← h, h0]; simp⟩
    split
    · rename_i h' h
      simp only [Bool.false_eq_true, false_iff, not_exists, not_and]
      intro r _ hr
      rw [← hsq r, h] at hr
      simp only [one_pow] at hr
      rw [Nat.mod_eq_of_lt (by omega)] at hr; omega
    · rename_i h3 h4
      rw [ih _ h4 h3]
      constructor
      · rintro ⟨r, hr, e⟩; exact ⟨r + 1, by omega, by rw [← hsq]; exact e⟩
      · rintro ⟨r, hr, e⟩
        cases r with
        | zero => rw [← hsq] at e; simp at e; exact absurd e h3
        | succ r => exact ⟨r, by omega, by rw [hsq]; exact e⟩

end Sys2Proof.Machine
end

