-- ==== Sys2Proof/Laws/Text.lean ====
section
/-! SUPPORT. Facts about the assembler's text: register names, blanks and commas (30_encoding.md R57). -/

namespace Sys2Proof.Machine

theorem regName_chars : ∀ k : RegIx, ∀ c ∈ regName k, c ≠ ',' ∧ isBlank c = false ∧ c ≠ ';' := by
  intro k
  fin_cases k <;> simp [regName, isBlank]
theorem regName_ne : ∀ k : RegIx, regName k ≠ [] := by decide
theorem parseReg_name : ∀ k : RegIx, parseReg (regName k) = some k := by decide
theorem trim_name : ∀ k : RegIx, trimBlanks (regName k) = regName k ∧ trimBlanks (' ' :: regName k) = regName k := by
  intro k
  fin_cases k <;> exact ⟨rfl, rfl⟩

def namesText (k : RegIx) (ks : List RegIx) : List Char := regName k ++ ks.flatMap fun k => ',' :: ' ' :: regName k

theorem operandText_eq (k ks) : operandText (k :: ks) = ' ' :: namesText k ks := by
  induction ks generalizing k with
  | nil => simp [operandText, namesText]
  | cons a as ih => rw [operandText, ih]; simp [namesText]; simp

theorem splitCommas_app (n x : List Char) (h : ∀ c ∈ n, c ≠ ',') : splitCommas (n ++ ',' :: x) = n :: splitCommas x := by
  induction n with
  | nil => simp [splitCommas]
  | cons c cs ih =>
    simp only [List.cons_append, splitCommas, if_neg (h c (by simp)), ih (fun d hd => h d (by simp [hd]))]
theorem splitCommas_one (n : List Char) (h : ∀ c ∈ n, c ≠ ',') : splitCommas n = [n] := by
  induction n with
  | nil => simp [splitCommas]
  | cons c cs ih =>
    simp only [splitCommas, if_neg (h c (by simp)), ih (fun d hd => h d (by simp [hd]))]

theorem splitCommas_tail (p : List Char) (hp : ∀ c ∈ p, c ≠ ',') (ks : List RegIx) :
    splitCommas (p ++ ks.flatMap fun k => ',' :: ' ' :: regName k) = p :: ks.map (fun k => ' ' :: regName k) := by
  induction ks generalizing p with
  | nil => simpa using splitCommas_one p hp
  | cons a as ih =>
    rw [List.flatMap_cons]
    have := ih (' ' :: regName a) (by intro c hc; rcases List.mem_cons.1 hc with rfl | hc; decide; exact (regName_chars a c hc).1)
    simp only [List.cons_append] at this ⊢
    rw [splitCommas_app p _ hp, this]; rfl

theorem namesText_last (k ks) : ∃ l c, namesText k ks = l ++ [c] ∧ isBlank c = false := by
  have nm : ∀ k, ∃ l c, regName k = l ++ [c] ∧ isBlank c = false := fun k => by
    refine ⟨(regName k).dropLast, (regName k).getLast (regName_ne k), (List.dropLast_append_getLast _).symm, ?_⟩
    exact (regName_chars k _ (List.getLast_mem _)).2.1
  rcases List.eq_nil_or_concat ks with rfl | ⟨as, a, rfl⟩
  · simpa [namesText] using nm k
  · obtain ⟨l, c, h, hc⟩ := nm a
    refine ⟨regName k ++ as.flatMap (fun k => ',' :: ' ' :: regName k) ++ ',' :: ' ' :: l, c, ?_, hc⟩
    simp [namesText, h]

theorem trim_id (c : Char) (cs l : List Char) (d : Char) (h : c :: cs = l ++ [d]) (hc : isBlank c = false) (hd : isBlank d = false) :
    trimBlanks (c :: cs) = c :: cs := by
  rw [trimBlanks, List.dropWhile_cons_of_neg (by simp [hc]), h]
  simp [hd]

theorem namesText_head (k ks) : ∃ c l, namesText k ks = c :: l ∧ isBlank c = false := by
  obtain ⟨c, l, h⟩ := List.exists_cons_of_ne_nil (regName_ne k)
  exact ⟨c, l ++ _, by rw [namesText, h]; rfl, (regName_chars k c (by simp [h])).2.1⟩

theorem namesText_trim (k ks) : trimBlanks (' ' :: namesText k ks) = namesText k ks := by
  obtain ⟨c, l, h, hc⟩ := namesText_head k ks
  obtain ⟨l', d, h', hd⟩ := namesText_last k ks
  have := trim_id c l l' d (by rw [← h, h']) hc hd
  rw [h, trimBlanks, List.dropWhile_cons_of_pos (by decide), ← trimBlanks, this]

theorem namesText_semi (k ks) : ∀ c ∈ namesText k ks, c ≠ ';' := by
  intro c hc
  simp only [namesText, List.mem_append, List.mem_flatMap, List.mem_cons] at hc
  rcases hc with hc | ⟨k', _, rfl | rfl | hc⟩
  · exact (regName_chars k c hc).2.2
  · decide
  · decide
  · exact (regName_chars k' c hc).2.2

end Sys2Proof.Machine
end

