-- ==== Sys2Proof/Tests/Slice0.lean ====
section
/-! SUPPORT. The model's own tests: the WellFormed smoke, words written out from 30_encoding.md R53, vectors of
95_test_vectors.md (each named beside its test), and for every statement with hypotheses a witness that meets them. -/

namespace Sys2Proof.Tests

open Sys2Proof Sys2Proof.Machine

/-! ## Small states -/

/-- W = 32, NREG = 8 (95_test_vectors.md section 0). -/
def small : Params := { wwords := 1, nreg := 8, base := 0x4000, unwritten := .free }

/-- W = 64, NREG = 4. -/
def twoWords : Params := { wwords := 2, nreg := 4, base := 0, unwritten := .free }

/-- `small`, with a read of an unwritten word the fault of R32. -/
def strict : Params := { small with unwritten := .fault }

/-- After power-on reset, with the given values loaded into r0, r1, … of the instance. -/
def loaded (p : Params) (vs : List Nat) : State :=
  { State.resetOf p with
    x := vs.map (fun v => (natToWords p.wwords v).map some)
      ++ List.replicate (p.nreg - vs.length) (List.replicate p.wwords none) }

/-- The next state of an outcome. -/
def nextOf (o : Host.Outcome State Fault Refusal) : Option State :=
  match o with
  | .next t => some t
  | .fault _ => none
  | .refused _ => none

/-- The fault an outcome is. -/
def faultOf (o : Host.Outcome State Fault Refusal) : Option Fault :=
  match o with
  | .next _ => none
  | .fault f => some f
  | .refused _ => none

/-- STATUS and the registers that changed, by their word 0, after the one step that runs the word `w`. -/
def outcome (w : Nat) (s : State) : Option (Word × List (Nat × Word)) :=
  (nextOf (step (s.withFetchWord 32 w))).map fun t =>
    (t.statusWord, (List.range 16).filterMap fun i =>
      if t.word i 0 = s.word i 0 then none else (t.word i 0).map fun v => (i, v))

/-- The answer and STATUS after one event. -/
def after (e : Event) (s : State) : Option (Option Word × Word) :=
  (nextOf (step { s with events := [e] })).map fun t => (t.reply, t.statusWord)

/-- The state after one event. -/
def did (e : Event) (s : State) : Option State := nextOf (step { s with events := [e] })

/-- A block with the word `w` in progress, before the given events. -/
def busyWith (w : Word) (es : List Event) (s : State) : State := { s.accept w with events := es }

/-! ## WellFormed smoke -/

theorem test_wellFormed_refuses_one_destination : (Instr.xgcd 3 3 0 1).wellFormed = false := by decide
theorem test_wellFormed_admits_two_destinations : (Instr.xgcd 3 4 3 4).wellFormed = true := by decide

/-! ## Decoding: words written out bit by bit from the patterns of R53 -/

theorem test_decode_nop : decode 0b0000_0000_0000_0000_0000_0000_00000000#32 = .ok .nop := by decide
theorem test_decode_montmul :
    decode 0b0000_1111_1000_0100_0000_0010_00000001#32 = .ok (.montmul 2 4 8 15) := by decide
theorem test_decode_montr2 : decode 0b0000_0001_0000_0000_0000_1000_00000010#32 = .ok (.montr2 8 1) := by decide
theorem test_decode_tomont : decode 0b0000_0100_0000_0010_0000_0001_00000011#32 = .ok (.tomont 1 2 4) := by decide
theorem test_decode_frommont :
    decode 0b0000_1000_0000_0100_0000_0010_00000100#32 = .ok (.frommont 2 4 8) := by decide
theorem test_decode_modred : decode 0b0000_0001_0000_1000_0000_0100_00000101#32 = .ok (.modred 4 8 1) := by decide
theorem test_decode_modmul :
    decode 0b0000_0001_0010_0100_0000_1000_00000110#32 = .ok (.modmul 8 4 2 1) := by decide
theorem test_decode_modexp :
    decode 0b0000_0010_0001_0000_0000_0011_00000111#32 = .ok (.modexp 3 0 1 2) := by decide
theorem test_decode_gcd : decode 0b0000_0000_1111_0100_0000_0001_00001000#32 = .ok (.gcd 1 4 15) := by decide
theorem test_decode_xgcd :
    decode 0b0000_0000_1000_0100_0010_0001_00001001#32 = .ok (.xgcd 1 2 4 8) := by decide
theorem test_decode_modinv : decode 0b0000_0001_0000_0010_0000_0100_00001010#32 = .ok (.modinv 4 2 1) := by decide
theorem test_decode_rmwit : decode 0b0000_1000_0000_0001_0000_0000_00001011#32 = .ok (.rmwit 1 8) := by decide

/-- EN2, EN4, EN5, EN6, EN7, and OP = 0xFF of EN3 (R54). -/
theorem test_decode_illegal :
    decode 0x0000000C#32 = .error .reservedOpcode ∧ decode 0x000000FF#32 = .error .reservedOpcode
    ∧ decode 0x10000007#32 = .error .reservedField ∧ decode 0x00001307#32 = .error .unusedField
    ∧ decode 0x00000100#32 = .error .unusedField ∧ decode 0x00003309#32 = .error .sameDestination := by decide

/-- Lane 0 carries bits 7:0 (R36): the MODEXP word 0x02100307 as bytes. -/
theorem test_decode_bytes :
    decodeBytes [0x07, 0x03, 0x10, 0x02] = .ok (.modexp 3 0 1 2) ∧ decodeBytes [0x07] = .error .notOneWord
    ∧ decodeTableWord 32 0x02100307 = some (.modexp 3 0 1 2) ∧ decodeTableWord 40 0x02100307 = none := by decide

/-- The assembler line of R57, in lower case with a comment, and the pseudo-instructions of R58. -/
theorem test_assembler :
    parseLine ['m', 'o', 'd', 'e', 'x', 'p', ' ', 'r', '3', ',', 'r', '0', ' ', ',', ' ', 'r', '1', ',', ' ', 'r', '2',
      ' ', ';', 'x'] = some (.modexp 3 0 1 2)
    ∧ parseLine ['M', 'O', 'D', 'S', 'Q', 'R', ' ', 'r', '3', ',', 'r', '0', ',', 'r', '1', '5']
      = some (.modmul 3 0 0 15)
    ∧ parseLine ['N', 'O', 'P', ' ', 'r', '1'] = none := by decide

/-! ## The commands: vectors of 95_test_vectors.md sections 2.1 to 2.5 -/

/-- EN1. -/
theorem test_nop : outcome 0x00000000 (loaded small [5, 3, 7]) = some (0x00000002, []) := by decide
/-- MM1. -/
theorem test_montmul : outcome 0x02100301 (loaded small [65, 17, 3233]) = some (0x00000002, [(3, 3094)]) := by decide
/-- MM9. -/
theorem test_montmul_range : outcome 0x02100301 (loaded small [3233, 1, 3233]) = some (0x00000406, []) := by decide
/-- RR2. -/
theorem test_montr2 : outcome 0x02000302 (loaded small [0, 0, 0xFFFFFFFB]) = some (0x00000002, [(3, 25)]) := by decide
/-- RR6. -/
theorem test_montr2_even : outcome 0x02000302 (loaded small [0, 0, 3232]) = some (0x00000306, []) := by decide
/-- TM4. -/
theorem test_tomont :
    outcome 0x02000303 (loaded small [0xFFFFFFFF, 0, 3233]) = some (0x00000002, [(3, 874)]) := by decide
/-- TM6. -/
theorem test_tomont_even : outcome 0x02000303 (loaded small [7, 0, 10]) = some (0x00000306, []) := by decide
/-- FM4. -/
theorem test_frommont :
    outcome 0x02000304 (loaded small [0xFFFFFFFF, 0, 3233]) = some (0x00000002, [(3, 1938)]) := by decide
/-- FM5. -/
theorem test_frommont_zero : outcome 0x02000304 (loaded small [7, 0, 0]) = some (0x00000306, []) := by decide
/-- MR1. -/
theorem test_modred : outcome 0x02000305 (loaded small [6531, 0, 3233]) = some (0x00000002, [(3, 65)]) := by decide
/-- MR5. -/
theorem test_modred_zero : outcome 0x02000305 (loaded small [5, 0, 0]) = some (0x00000306, []) := by decide
/-- MD1. -/
theorem test_modmul : outcome 0x02100306 (loaded small [0x75BCD15, 0x3ADE68B1, 0x3B9ACA07])
    = some (0x00000002, [(3, 0xF71A82B)]) := by decide
/-- MD7. -/
theorem test_modmul_zero : outcome 0x02100306 (loaded small [6, 7, 0]) = some (0x00000306, []) := by decide
/-- EX9. -/
theorem test_modexp :
    outcome 0x02100307 (loaded small [2, 0xFFFFFFFF, 0xFFFFFFFB]) = some (0x00000002, [(3, 32)]) := by decide +kernel
/-- EX3: 0 ^ 0 = 1. -/
theorem test_modexp_zero : outcome 0x02100307 (loaded small [0, 0, 7]) = some (0x00000002, [(3, 1)]) := by decide
/-- GC2. -/
theorem test_gcd : outcome 0x00100308 (loaded small [240, 46]) = some (0x00000002, [(3, 2)]) := by decide
/-- GC3. -/
theorem test_gcd_zero : outcome 0x00100308 (loaded small [0, 0]) = some (0x00000002, [(3, 0)]) := by decide
/-- XG3. -/
theorem test_xgcd : outcome 0x00104309 (loaded small [1234, 56789])
    = some (0x00000002, [(3, 0xFFFF9E63), (4, 543)]) := by decide
/-- XG8, with both results over the sources: XGCD r0, r1, r0, r1. -/
theorem test_xgcd_over_sources : outcome 0x00101009 (loaded small [240, 46])
    = some (0x00000002, [(0, 0xFFFFFFF7), (1, 47)]) := by decide
/-- MI3. -/
theorem test_modinv : outcome 0x0200030A (loaded small [1234, 0, 56789]) = some (0x00000002, [(3, 31800)]) := by decide
/-- MI10. -/
theorem test_modinv_domain : outcome 0x0200030A (loaded small [4, 0, 6]) = some (0x00000506, []) := by decide
/-- RM2: a strong liar of 221. -/
theorem test_rmwit : outcome 0x0200000B (loaded small [174, 0, 221]) = some (0x0000000A, []) := by decide
/-- RM3. -/
theorem test_rmwit_composite : outcome 0x0200000B (loaded small [137, 0, 221]) = some (0x00000002, []) := by decide

/-- EN8, EN9, EN10, EN12 and MM12: the order of the checks (R87). -/
theorem test_check_order :
    outcome 0x90003309 (loaded small [5, 3, 7]) = some (0x00000106, [])
    ∧ outcome 0x0FF0000B (loaded small [5, 3, 7]) = some (0x00000106, [])
    ∧ outcome 0x02100807 (loaded small [5, 3, 7]) = some (0x00000206, [])
    ∧ outcome 0x02100907 (loaded small [5, 3, 0]) = some (0x00000206, [])
    ∧ outcome 0x02100301 (loaded small [9, 1, 4]) = some (0x00000306, []) := by decide

/-- EN13: NREG = 16. -/
theorem test_sixteen_registers :
    outcome 0x02100807 (loaded { small with nreg := 16 } [5, 3, 7]) = some (0x00000002, [(8, 6)]) := by decide

/-- 95_test_vectors.md section 2.7: MONTMUL(65, 17) at W = 1024. -/
theorem test_montmul_wide :
    outcome 0x02100301 (loaded Params.production [65, 17, 3233]) = some (0x00000002, [(3, 2002)]) := by
  decide +kernel

/-- Section 2.7: the multi-word MODEXP r4, r1, r2, r3 at W = 1024. -/
theorem test_modexp_wide :
    (nextOf (step ((loaded Params.production [0, 2 ^ 64 + 3, 2, 2 ^ 1023 - 1]).withFetchWord 32 0x03210407))).map
      (fun t => t.operand 0 4) = some (2 ^ 128 + 6 * 2 ^ 64 + 9) := by
  decide +kernel

/-! ## The bus and the control actions: vectors of section 2.6 -/

/-- BU1 to BU5. -/
theorem test_bus_reads :
    after (hostRD 0x0000) State.reset = some (some 0x4D4D0001, 0)
    ∧ after (hostRD 0x0004) State.reset = some (some 0x00000820, 0)
    ∧ after (hostRD 0x0014) State.reset = some (some 0, 0)
    ∧ after (hostRD 0x0011) State.reset = some (some 0, 0x00020000)
    ∧ after (.access { kind := .read, off := 0x0010, size := 1, data := 0 }) State.reset
      = some (some 0, 0x00020000) := by decide

/-- BU6 to BU8: unmapped offsets. -/
theorem test_bus_unmapped :
    after (hostRD 0x0018) State.reset = some (some 0, 0x00020000)
    ∧ after (hostRD 0x1080) State.reset = some (some 0, 0x00020000)
    ∧ after (hostRD 0x2000) State.reset = some (some 0, 0x00020000) := by decide

/-- BU9, BU11: a write to ID is ignored; CTRL keeps IE alone. -/
theorem test_bus_writes :
    after (hostWR 0x0000 0x00001234) State.reset = some (none, 0)
    ∧ (did (hostWR 0x0008 0xFFFFFFF9) State.reset).map (fun t => (t.ctrlWord, t.statusWord))
      = some (0x00000001, 0) := by decide

/-- BU12, on a two-word instance: 2^32 + 5 is word 0 = 5 and word 1 = 1 (R37). -/
theorem test_window :
    after (hostRD 0x1000) (loaded twoWords [2 ^ 32 + 5]) = some (some 5, 0)
    ∧ after (hostRD 0x1004) (loaded twoWords [2 ^ 32 + 5]) = some (some 1, 0)
    ∧ (did (hostWR 0x1204 7) (loaded twoWords [0, 1])).map (fun t => t.operand 0 1) = some (7 * 2 ^ 32 + 1) := by
  decide

/-- HZ1 and HZ2, the accesses while BUSY. -/
theorem test_busy_writes :
    (did (hostWR 0x1000 99) (busyWith 0x02100307 [] (loaded small [3, 5, 7]))).map
      (fun t => (t.statusWord, t.word 0 0)) = some (0x00010001, some 3)
    ∧ (did (hostWR 0x000C 0) (busyWith 0x02100307 [] (loaded small [3, 5, 7]))).map
      (fun t => (t.statusWord, t.L)) = some (0x00010001, 0x02100307) := by decide

/-- HZ3: a soft reset while BUSY. -/
theorem test_soft_reset :
    (did (hostWR 0x0008 4) { busyWith 0x02100307 [] (loaded small [3, 5, 7]) with ie := true }).map
      (fun t => (t.statusWord, t.ctrlWord, t.L, t.irq)) = some (0, 0, 0, false)
    ∧ (did (hostWR 0x0008 4) (busyWith 0x02100307 [] (loaded small [3, 5, 7]))).map State.x
      = some (loaded small [3, 5, 7]).x := by decide

/-- HZ4, HZ5 (abort first), P5 step 8 (0x3 aborts with IRQ). -/
theorem test_abort :
    after (hostWR 0x0008 2) (loaded small []) = some (none, 0)
    ∧ (did (hostWR 0x0008 2) (busyWith 0x02100307 [] (loaded small [3, 5, 7]))).map
      (fun t => (t.statusWord, t.word 3 0, t.irq)) = some (0x00000606, none, false)
    ∧ (did (hostWR 0x0008 3) (busyWith 0x02100307 [] (loaded small [3, 5, 7]))).map State.irq = some true := by
  decide

/-- HZ6: CLEAR of DONE keeps ERR and ERRCODE. -/
theorem test_clear :
    (did (hostWR 0x0014 0x00000002) { loaded small [] with done := true, errcode := .aborted }).map State.statusWord
      = some 0x00000604 := by decide

/-- R101: RST leaves nothing. -/
theorem test_power_on_reset :
    did .rst { busyWith 0x02100307 [] (loaded small [3, 5, 7]) with ie := true, accerr := true }
      = some (loaded small []) := by decide

/-- R8: BASE = 0x4000; the first and the last word of the aperture, and the addresses around it. -/
theorem test_base :
    after (.bus .read 0x4000 4 0) (loaded small []) = some (some 0x4D4D0001, 0)
    ∧ after (.bus .read 0x7FFC 4 0) (loaded small []) = some (some 0, 0x00020000)
    ∧ after (.bus .read 0x3FFC 4 0) (loaded small []) = some (none, 0)
    ∧ after (.bus .read 0x8000 4 0) (loaded small []) = some (none, 0) := by decide

/-- R32: a Host read of an unwritten word faults, and so does a command with a source that has one, RMWIT with an even
n and an unwritten witness too; a Host write of one word of two does not make the register written. -/
theorem test_unwritten_reads_fault :
    faultOf (step { loaded strict [] with events := [hostRD 0x1000] }) = some .unwrittenRead
    ∧ faultOf (step ((loaded strict [5]).withFetchWord 32 0x00100308)) = some .unwrittenOperand
    ∧ faultOf (step ((loaded strict [5, 4]).withFetchWord 32 0x0100000B)) = none
    ∧ faultOf (step ((loaded strict [5, 4]).withFetchWord 32 0x0102000B)) = some .unwrittenOperand
    ∧ (did (hostWR 0x1004 7) (loaded { twoWords with unwritten := .fault } [])).map (fun t => t.written 0)
      = some false := by decide

/-- R32 in an instance that goes on: the reads of unwritten words are counted, and no others. -/
theorem test_unwritten_reads_are_counted :
    (did (hostRD 0x1000) (loaded small [])).map State.freeCount = some 1
    ∧ (nextOf (step ((loaded small [5]).withFetchWord 32 0x00100308))).map State.freeCount = some 1
    ∧ (nextOf (step ((loaded small [12, 18]).withFetchWord 32 0x00100308))).map State.freeCount = some 0 := by decide

/-- From reset the first command runs whether or not its sources are written (log 2). -/
theorem test_first_command_runs :
    (nextOf (step (State.reset.withFetchWord 32 0x0200000B))).isSome = true
    ∧ outcome 0x00000000 State.reset = some (0x00000002, []) := by decide

/-- S4 and S5 with the witnesses of program P3 (95_test_vectors.md section 3). -/
theorem test_host_primality :
    hostIsProbablePrime 13 [2, 5, 11] = .ok true ∧ hostIsProbablePrime 221 [174, 137, 21] = .ok false := by decide

/-- R73 on (−13, 2436), from vector XG1. -/
theorem test_host_euclid : hostExtendedEuclid (-13) 2436 = (-937, -5) := by decide

/-! ## Witnesses: for every statement with hypotheses, states and operands that meet them, clause by clause at the
boundaries. Each is named after its statement. -/

/-- The hypotheses common to the statements about a command's result. -/
abbrev Meets (s : State) (i : Instr) : Prop := s.params.Legal ∧ s.RegsWf ∧ s.Runs i

/-- `s` with the given events pending. -/
abbrev pending (es : List Event) (s : State) : State := { s with events := es }

theorem witness_DecodeEncodeReturnsTheCommand :
    (Instr.xgcd 15 0 15 15).wellFormed = true ∧ (Instr.montmul 15 15 15 15).wellFormed = true := by decide

theorem witness_EncodeDecodeReturnsTheWord : decode 0x00FF0F09#32 = .ok (.xgcd 15 0 15 15) := by decide

theorem witness_DecoderAgreesWithOpcodeMap :
    decode 0x00FF0F09#32 = .ok (.xgcd 15 0 15 15)
    ∧ (∃ r ∈ opcodeMap, r.selects 0x00FF0F09#32 = true ∧ opOf 0x00FF0F09#32 = 0x09#8)
    ∧ (∃ r ∈ opcodeMap, r.selects 0x00003309#32 = true) ∧ decode 0x00003309#32 = .error .sameDestination := by decide

theorem witness_IllegalWordsCompleteWithIllegal :
    (decode 0x0000000C#32 = .error .reservedOpcode ∧ decode 0x10000000#32 = .error .reservedField
      ∧ decode 0x00000100#32 = .error .unusedField ∧ decode 0x00001001#32 = .error .unusedField
      ∧ decode 0x00010002#32 = .error .unusedField ∧ decode 0x00100003#32 = .error .unusedField
      ∧ decode 0x01000008#32 = .error .unusedField ∧ decode 0x0000FF09#32 = .error .sameDestination)
    ∧ decode 0x0000000B#32 = .ok (.rmwit 0 0)
    ∧ (pending [hostWR 0x000C 0x0000000C, .engine] (loaded small [])).busy = false := by decide

theorem witness_StepCompletesTheLatchedCommand :
    (busyWith 0x02100307 [] (loaded small [3, 5, 7])).busy = true
    ∧ decode (busyWith 0x02100307 [.engine] (loaded small [3, 5, 7])).L = .ok (.modexp 3 0 1 2)
    ∧ (busyWith 0x02100307 [.engine] (loaded small [3, 5, 7])).events = [.engine]
    ∧ decode (busyWith 0x00003309 [] (loaded small [])).L = .error .sameDestination
    ∧ decodeTableWord 32 0x00104309 = some (.xgcd 3 4 0 1) := by decide

theorem witness_StepTakesTheFirstPendingEvent :
    (pending [hostRD 0x0010, .rst] (loaded small [])).events = hostRD 0x0010 :: [.rst]
    ∧ (pending [.rst] (loaded small [])).events = .rst :: []
    ∧ (loaded small []).events = [] ∧ (loaded small []).busy = false := by decide

theorem witness_MontmulGivesTheMontgomeryProduct :
    (Meets (loaded small [5, 3, 0]) (.montmul 7 0 1 2) ∧ (loaded small [5, 3, 0]).opC 2 % 2 = 0)
    ∧ (Meets (loaded small [3233, 1, 3233]) (.montmul 2 0 1 2)
      ∧ (loaded small [3233, 1, 3233]).opC 2 % 2 = 1 ∧ (loaded small [3233, 1, 3233]).opC 2 ≤ (loaded small [3233, 1, 3233]).opA 0)
    ∧ (Meets (loaded small [1, 3233, 3233]) (.montmul 2 0 1 2)
      ∧ (loaded small [1, 3233, 3233]).opC 2 ≤ (loaded small [1, 3233, 3233]).opB 1)
    ∧ (Meets (loaded small [0, 0, 1]) (.montmul 3 0 1 2) ∧ (loaded small [0, 0, 1]).opC 2 % 2 = 1
      ∧ (loaded small [0, 0, 1]).opA 0 < (loaded small [0, 0, 1]).opC 2
      ∧ (loaded small [0, 0, 1]).opB 1 < (loaded small [0, 0, 1]).opC 2)
    ∧ Meets (loaded small []) (.montmul 7 7 7 7) ∧ Meets (loaded strict [0, 0, 1]) (.montmul 3 0 1 2) := by
  refine ⟨by decide, by decide, by decide, by decide, by decide, by decide⟩

theorem witness_Montr2GivesRSquared :
    (Meets (loaded small [0]) (.montr2 0 0) ∧ (loaded small [0]).opC 0 % 2 = 0)
    ∧ (Meets (loaded small [0xFFFFFFFF]) (.montr2 7 0) ∧ (loaded small [0xFFFFFFFF]).opC 0 % 2 = 1) := by decide

theorem witness_TomontGivesMontgomeryForm :
    (Meets (loaded small [7, 10]) (.tomont 7 0 1) ∧ (loaded small [7, 10]).opC 1 % 2 = 0)
    ∧ (Meets (loaded small [0xFFFFFFFF, 1]) (.tomont 1 0 1) ∧ (loaded small [0xFFFFFFFF, 1]).opC 1 % 2 = 1) := by decide

theorem witness_FrommontLeavesMontgomeryForm :
    (Meets (loaded small [7, 0]) (.frommont 7 0 1) ∧ (loaded small [7, 0]).opC 1 % 2 = 0)
    ∧ (Meets (loaded small [0xFFFFFFFF, 1]) (.frommont 1 0 1) ∧ (loaded small [0xFFFFFFFF, 1]).opC 1 % 2 = 1) := by decide

theorem witness_ModredReduces :
    (Meets (loaded small [5, 0]) (.modred 7 0 1) ∧ (loaded small [5, 0]).opC 1 = 0)
    ∧ (Meets (loaded small [7, 1]) (.modred 1 0 1) ∧ (loaded small [7, 1]).opC 1 ≠ 0) := by decide

theorem witness_ModmulMultiplies :
    (Meets (loaded small [6, 7, 0]) (.modmul 7 0 1 2) ∧ (loaded small [6, 7, 0]).opC 2 = 0)
    ∧ (Meets (loaded small [6, 7, 1]) (.modmul 2 0 1 2) ∧ (loaded small [6, 7, 1]).opC 2 ≠ 0) := by decide

theorem witness_ModexpRaises :
    (Meets (loaded small [2, 3, 0]) (.modexp 7 0 1 2) ∧ (loaded small [2, 3, 0]).opC 2 = 0)
    ∧ (Meets (loaded small [0, 0, 1]) (.modexp 2 0 1 2) ∧ (loaded small [0, 0, 1]).opC 2 ≠ 0) := by decide

theorem witness_GcdGivesTheGreatestCommonDivisor :
    (Meets (loaded small [7, 0]) (.gcd 0 0 1) ∧ (loaded small [7, 0]).opB 1 = 0)
    ∧ (Meets (loaded small [0, 0]) (.gcd 7 0 1) ∧ (loaded small [0, 0]).opA 0 = 0) := by decide

theorem witness_XgcdGivesTheBezoutPair :
    Meets (loaded small [240, 46]) (.xgcd 0 1 0 1) ∧ Meets (loaded small [0xFFFFFFFF, 0]) (.xgcd 7 6 0 1) := by decide

theorem witness_ModinvInverts :
    (Meets (loaded small [3, 0]) (.modinv 7 0 1) ∧ (loaded small [3, 0]).opC 1 = 0)
    ∧ (Meets (loaded small [0, 5]) (.modinv 7 0 1) ∧ (loaded small [0, 5]).opC 1 ≠ 0
      ∧ Nat.gcd ((loaded small [0, 5]).opA 0) ((loaded small [0, 5]).opC 1) ≠ 1)
    ∧ (Meets (loaded small [0, 1]) (.modinv 1 0 1) ∧ (loaded small [0, 1]).opC 1 ≠ 0
      ∧ Nat.gcd ((loaded small [0, 1]).opA 0) ((loaded small [0, 1]).opC 1) = 1) := by decide

/-- n = 2 and n = 4 (even), n = 3 (below 5), n = 5 with the witnesses 1, 2, 3 and 4. -/
theorem witness_RmwitRunsOneWitnessRound :
    (Meets (loaded small [2, 2]) (.rmwit 0 1) ∧ (loaded small [2, 2]).opC 1 % 2 = 0)
    ∧ (Meets (loaded small [2, 3]) (.rmwit 0 1) ∧ (loaded small [2, 3]).opC 1 % 2 = 1 ∧ (loaded small [2, 3]).opC 1 < 5)
    ∧ (∀ w ∈ [1, 4], Meets (loaded small [w, 5]) (.rmwit 0 1) ∧ (loaded small [w, 5]).opC 1 % 2 = 1
      ∧ 5 ≤ (loaded small [w, 5]).opC 1
      ∧ ((loaded small [w, 5]).opA 0 < 2 ∨ (loaded small [w, 5]).opC 1 - 2 < (loaded small [w, 5]).opA 0))
    ∧ (∀ w ∈ [2, 3], Meets (loaded small [w, 5]) (.rmwit 0 1) ∧ (loaded small [w, 5]).opC 1 % 2 = 1
      ∧ 5 ≤ (loaded small [w, 5]).opC 1 ∧ 2 ≤ (loaded small [w, 5]).opA 0
      ∧ (loaded small [w, 5]).opA 0 ≤ (loaded small [w, 5]).opC 1 - 2) := by
  refine ⟨by decide, by decide, by decide, by decide⟩

theorem witness_RinvIsTheUniqueInverse :
    (∀ N ∈ [1, 3, 2 ^ 32 - 1], N % 2 = 1 ∧ N < 2 ^ 32) ∧ IsRinv 32 1 0 ∧ IsRinv 32 3233 1296 := by
  unfold IsRinv
  decide

theorem witness_MontgomeryFormIdentities : ∀ N ∈ [1, 3, 2 ^ 32 - 1], N % 2 = 1 ∧ N < 2 ^ 32 := by decide

theorem witness_FrommontUndoesTomont :
    ∃ t u, Meets (loaded small [3298, 3233]) (.tomont 2 0 1) ∧ (7 : RegIx) < (loaded small [3298, 3233]).params.nreg
      ∧ (2 : RegIx) ≠ 1 ∧ (loaded small [3298, 3233]).written 1 = true ∧ (loaded small [3298, 3233]).opC 1 % 2 = 1
      ∧ exec (.tomont 2 0 1) (loaded small [3298, 3233]) = .next t ∧ exec (.frommont 7 2 1) t = .next u :=
  ⟨_, _, by decide, by decide, by decide, by decide, by decide, rfl, rfl⟩

theorem witness_ReferenceExponentiationIsThePower :
    (1 ≤ 1 ∧ 1 < 2 ^ 32 ∧ 0 < 2 ^ 32) ∧ (1 ≤ 2 ^ 32 - 1 ∧ 2 ^ 32 - 1 < 2 ^ 32) := by decide

theorem witness_XgcdIsTheBezoutPairOfTheRecursion : (1 : Nat) ≠ 0 ∧ 2 ≤ 2 ∧ 3 < 2 ^ 2 ∧ 0 < 2 ^ 2 := by decide

theorem witness_PrimesPassEveryWitness :
    ∀ w ∈ [2, 3], Meets (loaded small [w, 5]) (.rmwit 0 1) ∧ ((loaded small [w, 5]).opC 1).Prime
      ∧ 5 ≤ (loaded small [w, 5]).opC 1 ∧ 2 ≤ (loaded small [w, 5]).opA 0
      ∧ (loaded small [w, 5]).opA 0 ≤ (loaded small [w, 5]).opC 1 - 2 := by decide

theorem witness_StrongLiarsOf221 : 2 ≤ 2 ∧ 2 ≤ 219 ∧ 219 ≤ 219 ∧ 21 ≤ 219 := by decide

theorem witness_HostPrimalityAcceptsOddPrimes :
    (Nat.Prime 3 ∧ 3 % 2 = 1 ∧ ∀ w ∈ ([] : List Nat), 2 ≤ w ∧ w ≤ 3 - 2)
    ∧ (Nat.Prime 5 ∧ 5 % 2 = 1 ∧ ∀ w ∈ [2, 3], 2 ≤ w ∧ w ≤ 5 - 2) ∧ 0 % 2 = 0 := by
  refine ⟨⟨by norm_num, by decide, by decide⟩, ⟨by norm_num, by decide, by decide⟩, by decide⟩

theorem witness_BadRegisterIsReported :
    ((Instr.montr2 0 8).wellFormed = true ∧ ∃ k ∈ (Instr.montr2 0 8).usedRegs, small.nreg ≤ k.val)
    ∧ ∃ t, exec (.montr2 0 15) (loaded { small with nreg := 16 } []) = .next t := ⟨by decide, _, rfl⟩

/-- GCD with one unwritten source, in both kinds of instance; with both written; with a register at NREG. -/
theorem witness_UnwrittenSourceFaults :
    (loaded small [5]).ReadsUnwrittenSource (.gcd 7 0 1) ∧ (loaded strict [5]).ReadsUnwrittenSource (.gcd 7 0 1)
    ∧ strict.unwritten = .fault ∧ small.unwritten = .free
    ∧ ¬(loaded strict [5, 6]).ReadsUnwrittenSource (.gcd 7 0 1)
    ∧ ¬(loaded strict [5]).ReadsUnwrittenSource (.gcd 8 0 1) :=
  ⟨by decide, by decide, rfl, rfl, by decide, by decide⟩

theorem witness_ErrorCodesByCommand :
    ∃ t, exec (.modinv 3 0 1) (loaded small [4, 6]) = .next t ∧ t.errcode = .domain := ⟨_, rfl, by decide⟩

theorem witness_CommandFrame :
    ∃ t, exec (.xgcd 0 1 0 1) (loaded small [240, 46]) = .next t
      ∧ (loaded small [240, 46]).allWritten (Instr.xgcd 0 1 0 1).sources = true := ⟨_, rfl, by decide⟩

/-- Two states that agree on the sources r0 and r1 and differ in the old destination r2 and in the status: a command
that completes, one that fails and one that faults. -/
theorem witness_CommandReadsOnlyItsSources :
    let s := loaded small [12, 18, 1]
    let s' := { loaded small [12, 18, 2] with overrun := true, done := true }
    s.params = s'.params ∧ s.freeCount = s'.freeCount ∧ s.x.length = s'.x.length
      ∧ (∀ k ∈ (Instr.gcd 2 0 1).sources, ∀ j, s.word k.val j = s'.word k.val j) ∧ s.word 2 0 ≠ s'.word 2 0
      ∧ (∃ t, exec (.gcd 2 0 1) s = .next t ∧ t.errcode = .none)
      ∧ (∃ t, exec (.modinv 2 0 1) s = .next t ∧ t.errcode = .domain)
      ∧ exec (.gcd 2 0 1) (loaded strict [12]) = .fault .unwrittenOperand := by
  refine ⟨rfl, rfl, rfl, ?_, by decide, ⟨_, rfl, by decide⟩, ⟨_, rfl, by decide⟩, rfl⟩
  simp [Instr.sources, State.word, loaded]

theorem witness_CmdWriteIssuesOrOverruns :
    (pending [hostWR 0x000C 0xFFFFFFFF] (loaded small [])).busy = false
    ∧ (busyWith 0 [hostWR 0x000C 0] (loaded small [])).busy = true
    ∧ (busyWith 0 [hostWR 0x000C 0] (loaded small [])).events = hostWR 0x000C 0 :: [] := by decide

/-- The last word of the last register of a two-word instance; unwritten and written words. -/
theorem witness_WindowReadReturnsTheWord :
    twoWords.Legal ∧ 3 < twoWords.nreg ∧ 1 < twoWords.wwords
    ∧ (pending [hostRD (windowOffset 3 1)] (loaded twoWords [0, 0, 0, 2 ^ 64 - 1])).word 3 1 = some 0xFFFFFFFF
    ∧ (loaded twoWords []).word 3 1 = none ∧ twoWords.unwritten = .free
    ∧ strict.Legal ∧ (loaded strict []).word 7 0 = none ∧ strict.unwritten = .fault := by decide

theorem witness_WindowWriteStoresOrOverruns :
    twoWords.Legal ∧ (loaded twoWords []).RegsWf ∧ 3 < twoWords.nreg ∧ 1 < twoWords.wwords
    ∧ (pending [hostWR (windowOffset 3 1) 5] (loaded twoWords [])).busy = false
    ∧ (busyWith 0 [hostWR (windowOffset 3 1) 5] (loaded twoWords [])).busy = true := by decide

theorem witness_UnsupportedAccessSetsAccerr :
    (∀ a ∈ [Access.mk .read 0x0010 1 0, ⟨.write, 0x1001, 4, 7⟩, ⟨.write, 0x0008, 8, 4⟩, ⟨.read, 0x4000, 4, 0⟩],
      (pending [.access a] (loaded small [])).events = .access a :: [] ∧ (a.size ≠ 4 ∨ a.off % 4 ≠ 0 ∨ 0x4000 ≤ a.off)) := by
  decide

/-- The first and last offsets of each unmapped range of R38, and mapped offsets beside them. -/
theorem witness_UnmappedOffsetsSetAccerr :
    (∀ off ∈ [0x0018, 0x0FFC, 0x1008, 0x11FC, 0x1608, 0x1800, 0x3FFC],
      off % 4 = 0 ∧ off < 0x4000 ∧ off ∉ [0x0000, 0x0004, 0x0008, 0x000C, 0x0010, 0x0014]
        ∧ ∀ i < twoWords.nreg, ∀ j < twoWords.wwords, off ≠ windowOffset i j)
    ∧ (∀ off ∈ [0x0000, 0x0004, 0x0008, 0x000C, 0x0010, 0x0014], off % 4 = 0 ∧ off < 0x4000)
    ∧ (∀ off ∈ [0x1000, 0x1004, 0x1600, 0x1604],
      ∃ i < twoWords.nreg, ∃ j < twoWords.wwords, off = windowOffset i j)
    ∧ twoWords.Legal ∧ twoWords.unwritten = .free := by decide

theorem witness_CtrlWriteOrder :
    (0x00000007#32).getLsbD 2 = true ∧ (0xFFFFFFF9#32).getLsbD 2 = false ∧ (0xFFFFFFF9#32).getLsbD 1 = false
    ∧ (0x00000003#32).getLsbD 1 = true ∧ (0x00000003#32).getLsbD 2 = false
    ∧ (busyWith 0 [hostWR 0x0008 3] (loaded small [])).busy = true := by decide

theorem witness_AbortDiscardsTheCommand :
    (busyWith 0 [hostWR 0x0008 2] (loaded small [])).events = hostWR 0x0008 2 :: []
    ∧ (0x00000002#32).getLsbD 1 = true ∧ (0x00000002#32).getLsbD 2 = false
    ∧ (busyWith 0 [hostWR 0x0008 2] (loaded small [])).busy = true
    ∧ (pending [hostWR 0x0008 2] (loaded small [])).busy = false := by decide

theorem witness_PowerOnResetState : (busyWith 0 [.rst] (loaded small [1])).events = .rst :: [] := by decide

theorem witness_ClearWriteClearsStickyBits :
    (pending [hostWR 0x0014 0x00030002] (loaded small [])).events = hostWR 0x0014 0x00030002 :: []
    ∧ (pending [hostRD 0x0014] (loaded small [])).events = hostRD 0x0014 :: [] := by decide

theorem witness_ControlRegisterReads :
    (∀ off ∈ [0x0000, 0x0004, 0x000C, 0x0010],
      (pending [hostRD off] (loaded small [])).events = hostRD off :: [])
    ∧ (pending [hostWR 0x0010 1] (loaded small [])).events = hostWR 0x0010 1 :: []
    ∧ small.Legal ∧ ({ small with wwords := 128, nreg := 16 } : Params).Legal := by decide

theorem witness_IrqFollowsEnableAndDone :
    (∃ t, exec .nop { loaded small [] with ie := true } = .next t ∧ t.irq = true)
    ∧ (0x00000002#32).getLsbD 1 = true := ⟨⟨_, rfl, by decide⟩, by decide⟩

theorem witness_ReadsAreIdempotent :
    small.Legal ∧ 7 < small.nreg ∧ 0 < small.wwords
    ∧ (pending [hostRD (windowOffset 0 0), hostRD (windowOffset 0 0)] (loaded small [9])).word 0 0 ≠ none := by decide

theorem witness_BusDecodesOnlyTheAperture :
    (pending [.bus .read 0x7FFF 4 0] (loaded small [])).events = .bus .read 0x7FFF 4 0 :: []
    ∧ 0x3FFF < 0x4000 ∧ 0x7FFF = small.base + 0x3FFF ∧ 0x3FFF < small.base ∧ small.base + 0x4000 ≤ 0x8000 := by decide

theorem witness_AbortAndCompletionRace :
    (∀ es ∈ [[hostWR 0x0008 0x2, .engine], [.engine, hostWR 0x0008 0x2]],
      (busyWith 0x02100307 es (loaded small [3, 5, 7])).busy = true
      ∧ decode (busyWith 0x02100307 es (loaded small [3, 5, 7])).L = .ok (.modexp 3 0 1 2))
    ∧ (nextOf (exec (.modexp 3 0 1 2) (busyWith 0x02100307 [] (loaded small [3, 5, 7])))).isSome = true
    ∧ decode (busyWith 0x0000000C [.engine, hostWR 0x0008 0x2] (loaded small [])).L = .error .reservedOpcode := by decide

theorem witness_LoadWritesTheValue :
    twoWords.Legal ∧ (loaded twoWords []).RegsWf ∧ (loaded twoWords []).busy = false ∧ (3 : RegIx).val < twoWords.nreg
    ∧ 2 ^ 64 - 1 < 2 ^ twoWords.width ∧ (hostLOAD twoWords 3 (2 ^ 64 - 1)).length = 2 := by decide

theorem witness_ExecSequenceReturnsStatus :
    ∃ u, (pending (hostEXEC (.gcd 3 0 1) 2) (loaded small [12, 18])).busy = false ∧ (Instr.gcd 3 0 1).wellFormed = true
      ∧ (pending (hostEXEC (.gcd 3 0 1) 2) (loaded small [12, 18])).events = hostEXEC (.gcd 3 0 1) 2 ++ []
      ∧ exec (.gcd 3 0 1) (pending [] ((loaded small [12, 18]).accept (encode (.gcd 3 0 1)))) = .next u :=
  ⟨_, by decide, by decide, by decide, rfl⟩

theorem witness_StepKeepsTheInvariant :
    ∃ t, (busyWith 0x0200000B [] (loaded small [174, 0, 221])).Inv
      ∧ step (busyWith 0x0200000B [] (loaded small [174, 0, 221])) = .next t ∧ t.result = true :=
  ⟨_, by decide, rfl, by decide⟩

theorem witness_ResetMeetsTheInvariant :
    small.Legal ∧ ({ small with wwords := 128, nreg := 16 } : Params).Legal
    ∧ ({ small with wwords := 1, nreg := 4 } : Params).Legal := by decide

/-- A Host read of an unwritten word and a completion on one, in both kinds of instance, and a step that reads none. -/
theorem witness_OnlyUnwrittenReadsStop :
    small.Legal ∧ strict.Legal
    ∧ (∀ p ∈ [small, strict], (pending [hostRD 0x1000] (loaded p [])).ReadsUnwrittenWord
      ∧ (busyWith 0x00100308 [] (loaded p [5])).CompletesNext (.gcd 3 0 1)
      ∧ (busyWith 0x00100308 [] (loaded p [5])).ReadsUnwrittenSource (.gcd 3 0 1))
    ∧ ¬(pending [.rst] (loaded strict [])).ReadsUnwritten := by
  refine ⟨by decide, by decide, ?_, ?_⟩
  · intro p hp
    simp only [List.mem_cons, List.not_mem_nil, or_false] at hp
    rcases hp with rfl | rfl <;>
      exact ⟨⟨0, 0, 0, [], by decide, by decide, by decide, .inl rfl⟩, ⟨rfl, by decide, .inl rfl⟩, by decide⟩
  · rintro (⟨i, j, v, es, _, _, _, h | h⟩ | ⟨i, ⟨hb, _⟩, _⟩)
    · cases h
    · cases h
    · cases hb

/-- A run that ends, and one that a read of an unwritten word stops after a step. -/
theorem witness_PendingWorkEnds :
    small.Legal ∧ strict.Legal
    ∧ (pending [.rst, hostRD 0x1000] (loaded strict [5])).params.unwritten = .fault
    ∧ (did .rst (loaded strict [5])).map (fun t => faultOf (step { t with events := [hostRD 0x1000] }))
      = some (some .unwrittenRead) := by decide

/-- A completion, a Host write and RST each change a word. -/
theorem witness_OperandWordsChangeOnlyAsStated :
    small.Legal
    ∧ (nextOf (step (busyWith 0x00100308 [] (loaded small [12, 18])))).map (fun t => t.word 3 0) = some (some 6)
    ∧ (nextOf (step (pending [hostWR 0x1600 5] (loaded small [12, 18])))).map (fun t => t.word 3 0) = some (some 5)
    ∧ (nextOf (step (pending [.rst] (loaded small [12, 18])))).map (fun t => t.word 0 0) = some none
    ∧ (loaded small [12, 18]).word 3 0 = none ∧ (loaded small [12, 18]).word 0 0 = some 12 := by decide

theorem witness_CommandInProgressIsKept :
    ∃ t, step (busyWith 0 [hostWR 0x1000 5] (loaded small [1])) = .next t
      ∧ (busyWith 0 [hostWR 0x1000 5] (loaded small [1])).busy = true ∧ t.busy = true := ⟨_, rfl, by decide, by decide⟩

theorem witness_DoneIsSetOnlyByACommandsEnd :
    ∃ t, step (busyWith 0 [] (loaded small [])) = .next t ∧ (busyWith 0 [] (loaded small [])).done = false
      ∧ t.done = true := ⟨_, rfl, by decide, by decide⟩

theorem witness_OnlyRmwitSetsResult :
    ∃ t, step (busyWith 0x0200000B [] (loaded small [174, 0, 221])) = .next t
      ∧ (busyWith 0x0200000B [] (loaded small [174, 0, 221])).result = false ∧ t.result = true :=
  ⟨_, rfl, by decide, by decide⟩

end Sys2Proof.Tests
end

section
/-! PROOFS. The extended Euclidean recursion (42_euclid.md R69): its unfolding, Bézout's identity, the bound on the
coefficients, their two's complement encoding (00_scope.md R12), and the inverse of 2^W they give (R14). -/

namespace Sys2Proof.Machine

/-! ## The recursion -/

@[simp] theorem xgcd_zero_right (a : Nat) : xgcd a 0 = (1, 0) := xgcdFuel_zero_right _ a

/-- One step of R69, with the fuel gone. -/
theorem xgcd_step (a b : Nat) (hb : b ≠ 0) :
    xgcd a b = ((xgcd b (a % b)).2, (xgcd b (a % b)).1 - ((a / b : Nat) : Int) * (xgcd b (a % b)).2) := by
  have hlt : a % b < 2 ^ (Nat.log2 b + 1) := (Nat.mod_lt a (Nat.pos_of_ne_zero hb)).trans Nat.lt_log2_self
  rw [xgcd_eq_fuel _ _ b (a % b) hlt le_rfl, xgcd, xgcdFuel, if_neg hb]

/-- R69: the pair satisfies Bézout's identity. -/
theorem xgcd_bezout (a b : Nat) : (a : Int) * (xgcd a b).1 + (b : Int) * (xgcd a b).2 = (Nat.gcd a b : Int) := by
  induction b, a using Nat.gcd.induction with
  | H0 a => simp
  | H1 b a hb ih =>
    have hdiv : ((a % b : Nat) : Int) + (b : Int) * ((a / b : Nat) : Int) = (a : Int) := by
      exact_mod_cast Nat.mod_add_div a b
    rw [xgcd_step a b hb.ne', Nat.gcd_comm, Nat.gcd_rec, Nat.gcd_comm, ← ih, ← hdiv]
    ring

/-! ## The size of the coefficients -/

/-- For `b > 0` the coefficient of `a` is at most `b / 2` in magnitude, and that of `b` at most `a / 2` or 1. -/
theorem two_mul_abs_xgcd_le (a b : Nat) (hb : 0 < b) :
    2 * |(xgcd a b).1| ≤ (b : Int) ∧ 2 * |(xgcd a b).2| ≤ max (a : Int) 2 := by
  induction b, a using Nat.gcd.induction with
  | H0 a => exact absurd hb (lt_irrefl 0)
  | H1 b a hb ih =>
    rw [xgcd_step a b hb.ne']
    rcases Nat.eq_zero_or_pos (a % b) with h0 | hpos
    · simp [h0]
    · obtain ⟨hx, hy⟩ := ih hpos
      have hb2 : (2 : Int) ≤ b := by exact_mod_cast Nat.lt_of_le_of_lt hpos (Nat.mod_lt a hb)
      rw [max_eq_left hb2] at hy
      refine ⟨hy, le_max_of_le_left ?_⟩
      have hdiv : ((a % b : Nat) : Int) + ((a / b : Nat) : Int) * (b : Int) = (a : Int) := by
        exact_mod_cast Nat.mod_add_div' a b
      calc 2 * |(xgcd b (a % b)).1 - ((a / b : Nat) : Int) * (xgcd b (a % b)).2|
          ≤ 2 * |(xgcd b (a % b)).1| + ((a / b : Nat) : Int) * (2 * |(xgcd b (a % b)).2|) := by
            have h := abs_sub (xgcd b (a % b)).1 (((a / b : Nat) : Int) * (xgcd b (a % b)).2)
            rw [abs_mul, Nat.abs_cast] at h
            linarith
        _ ≤ ((a % b : Nat) : Int) + ((a / b : Nat) : Int) * (b : Int) := by gcongr
        _ = a := hdiv

/-- R69: for operands below 2^W both coefficients are at most 2^(W−1) − 1 in magnitude. -/
theorem abs_xgcd_lt (W a b : Nat) (hW : 2 ≤ W) (ha : a < 2 ^ W) (hb : b < 2 ^ W) :
    |(xgcd a b).1| < 2 ^ (W - 1) ∧ |(xgcd a b).2| < 2 ^ (W - 1) := by
  obtain ⟨n, rfl⟩ : ∃ n, W = n + 2 := ⟨W - 2, by omega⟩
  have hn : (1 : Int) ≤ 2 ^ n := one_le_pow₀ one_le_two
  have hW : (2 : Int) ^ (n + 2) = 4 * 2 ^ n := by ring
  have hW1 : (2 : Int) ^ (n + 2 - 1) = 2 * 2 ^ n := by rw [Nat.add_sub_assoc (by decide)]; ring
  have ha : (a : Int) < 4 * 2 ^ n := by rw [← hW]; exact_mod_cast ha
  have hb : (b : Int) < 4 * 2 ^ n := by rw [← hW]; exact_mod_cast hb
  rw [hW1]
  rcases Nat.eq_zero_or_pos b with rfl | hpos
  · simp only [xgcd_zero_right, abs_one, abs_zero]
    constructor <;> linarith
  · obtain ⟨hx, hy⟩ := two_mul_abs_xgcd_le a b hpos
    have hmax : max (a : Int) 2 < 4 * 2 ^ n := max_lt ha (by linarith)
    constructor <;> linarith

/-! ## Two's complement -/

/-- The encoding of an integer is its residue modulo 2^W. -/
theorem twos_cast (W : Nat) (z : Int) : (twos W z : Int) = z % 2 ^ W :=
  Int.toNat_of_nonneg (Int.emod_nonneg z (by positivity))

theorem twos_lt (W : Nat) (z : Int) : twos W z < 2 ^ W := by
  have h : (twos W z : Int) < 2 ^ W := twos_cast W z ▸ Int.emod_lt_of_pos z (by positivity)
  exact_mod_cast h

/-- R12: an integer of magnitude below 2^(W−1) reads back from its encoding. -/
theorem sext_twos (W : Nat) (z : Int) (hW : 1 ≤ W) (hz : |z| < 2 ^ (W - 1)) : sext W (twos W z) = z := by
  obtain ⟨n, rfl⟩ : ∃ n, W = n + 1 := ⟨W - 1, by omega⟩
  rw [Nat.add_sub_cancel] at hz
  have hW : (2 : Int) ^ (n + 1) = 2 * 2 ^ n := by ring
  obtain ⟨hlo, hhi⟩ := abs_lt.mp hz
  have hsign : twos (n + 1) z < 2 ^ n ↔ (twos (n + 1) z : Int) < 2 ^ n := by exact_mod_cast Iff.rfl
  rw [sext, Nat.add_sub_cancel]
  simp only [hsign, twos_cast]
  rcases lt_or_ge z 0 with hneg | hnonneg
  · have hmod : z % 2 ^ (n + 1) = z + 2 ^ (n + 1) := by
      rw [← Int.add_emod_right, Int.emod_eq_of_lt] <;> linarith
    rw [hmod, if_neg (by linarith)]
    ring
  · rw [Int.emod_eq_of_lt hnonneg (by linarith), if_pos hhi]

/-- A register that holds the encoding of such an integer gives its residue and, read as signed, the integer. -/
theorem residue_and_sext_of_eq_twos {W v : Nat} {z : Int} (hv : v = twos W z) (hW : 1 ≤ W) (hz : |z| < 2 ^ (W - 1)) :
    (v : Int) = z % 2 ^ W ∧ sext W v = z := by
  subst hv
  exact ⟨twos_cast W z, sext_twos W z hW hz⟩

/-! ## The inverse of 2^W (00_scope.md R14) -/

theorem coprime_two_pow_of_odd (W N : Nat) (hN : N % 2 = 1) : Nat.Coprime (2 ^ W) N :=
  (Nat.coprime_two_left.mpr (Nat.odd_iff.mpr hN)).pow_left W

/-- Rinv_N is the Bézout coefficient of 2^W, reduced. -/
theorem montInv_cast (W N : Nat) (hN : 0 < N) : (montInv W N : Int) = (xgcd (2 ^ W % N) N).1 % (N : Int) :=
  Int.toNat_of_nonneg (Int.emod_nonneg _ (by exact_mod_cast hN.ne'))

/-- The model's Rinv_N is an inverse of 2^W in [0, N) for every odd N. -/
theorem isRinv_montInv (W N : Nat) (hN : N % 2 = 1) : IsRinv W N (montInv W N) := by
  have hpos : 0 < N := by omega
  have hcast := montInv_cast W N hpos
  have hgcd : Nat.gcd (2 ^ W % N) N = 1 := by
    rw [← Nat.gcd_rec, Nat.gcd_comm]
    exact coprime_two_pow_of_odd W N hN
  have hbez := xgcd_bezout (2 ^ W % N) N
  rw [hgcd] at hbez
  constructor
  · have h : (montInv W N : Int) < N := hcast ▸ Int.emod_lt_of_pos _ (by exact_mod_cast hpos)
    exact_mod_cast h
  · have h : (2 : Int) ^ W * (montInv W N : Int) ≡ 1 [ZMOD N] :=
      calc (2 : Int) ^ W * (montInv W N : Int)
          ≡ ((2 ^ W % N : Nat) : Int) * (xgcd (2 ^ W % N) N).1 [ZMOD N] := by
            rw [hcast]
            push_cast
            exact (Int.mod_modEq _ _).symm.mul (Int.mod_modEq _ _)
        _ ≡ ((2 ^ W % N : Nat) : Int) * (xgcd (2 ^ W % N) N).1 + (N : Int) * (xgcd (2 ^ W % N) N).2 [ZMOD N] :=
            (Int.modEq_add_fac_self).symm
        _ = 1 := by exact_mod_cast hbez
    exact_mod_cast h

/-- R14: an odd N has one inverse of 2^W in [0, N). -/
theorem IsRinv.unique {W N r r' : Nat} (hN : N % 2 = 1) (h : IsRinv W N r) (h' : IsRinv W N r') : r = r' := by
  obtain ⟨hr, hinv⟩ := h
  obtain ⟨hr', hinv'⟩ := h'
  have hmod : r ≡ r' [MOD N] :=
    Nat.ModEq.cancel_left_of_coprime (coprime_two_pow_of_odd W N hN).symm (hinv.trans hinv'.symm)
  exact hmod.eq_of_lt_of_lt hr hr'

theorem montInv_one (W : Nat) : montInv W 1 = 0 := by
  simp [montInv]

end Sys2Proof.Machine
end

section
/-! PROOFS. The common ends of a command that runs its body, by what the body gives. -/

namespace Sys2Proof.Machine

/-- A command that runs its body has its registers (30_encoding.md R55). -/
theorem State.Runs.reg_lt {s : State} {i : Instr} {k : RegIx} (h : s.Runs i) (hk : k ∈ i.usedRegs) :
    k.val < s.params.nreg := by
  obtain ⟨⟨-, hregs⟩, -⟩ := h
  exact hregs k hk

theorem State.Runs.wellFormed {s : State} {i : Instr} (h : s.Runs i) : i.wellFormed = true := by
  obtain ⟨⟨hlegal, -⟩, -⟩ := h
  exact hlegal

/-- A body that gives an error fails the command with it (60_exceptions.md R85). -/
theorem fails_of_bodyResult (i : Instr) (s : State) (c : ErrCode) (hb : bodyResult i s = .err c) :
    Fails s ((s.afterRead i.sources).complete (bodyResult i s)) c := by
  rw [hb]
  exact fails_afterRead s i.sources c

/-- A body that stages one value below 2^W for one of the command's registers completes with it. -/
theorem completesWith_of_bodyResult (i : Instr) (s : State) (k : RegIx) (v : Nat) (h : s.RegsWf)
    (hk : k.val < s.params.nreg) (hv : v < 2 ^ s.params.width) (hb : bodyResult i s = .ok [(k, v)] false) :
    CompletesWith s ((s.afterRead i.sources).complete (bodyResult i s)) k v := by
  rw [hb]
  exact completesWith_afterRead s i.sources k v h hk hv

/-- A residue modulo an operand is below 2^W. -/
theorem State.mod_operand_lt (s : State) (f : Nat) (k : RegIx) (v : Nat) (h : s.operand f k ≠ 0) :
    v % s.operand f k < 2 ^ s.params.width :=
  (Nat.mod_lt v (Nat.pos_of_ne_zero h)).trans (s.operand_lt f k)

/-- The greatest common divisor of two numbers below a bound is below it. -/
theorem gcd_lt_of_lt (a b n : Nat) (ha : a < n) (hb : b < n) : Nat.gcd a b < n := by
  rcases Nat.eq_zero_or_pos a with rfl | hpos
  · simpa using hb
  · exact (Nat.gcd_le_left b hpos).trans_lt ha

end Sys2Proof.Machine
end

section
/-! PROOFS. The opcode of a decoded word, and that only RMWIT gives RESULT 1 (30_encoding.md R51, 10_state.md R30). -/

namespace Sys2Proof

/-- The decoder picks the command by the word's opcode. -/
theorem opOf_of_decode_ok (c : Word) (i : Instr) (h : decode c = .ok i) : opOf c = i.opcode := by
  unfold decode at h
  split at h
  · cases h
  split at h
  · cases h
  split at h
  · cases h
  dsimp only at h
  apply BitVec.eq_of_toNat_eq
  split at h
  case h_10 => -- XGCD, which tests its two destinations
    rename_i hop
    split at h
    · cases h
    · cases h
      exact hop
  case h_13 => cases h
  all_goals
    rename_i hop
    cases h
    exact hop

end Sys2Proof

namespace Sys2Proof.Machine

/-- Only RMWIT's body gives RESULT 1. -/
theorem opcode_of_bodyResult_true (i : Instr) (s : State) (ws : List (RegIx × Nat))
    (h : bodyResult i s = .ok ws true) : i.opcode = 0x0B#8 := by
  cases i with
  | rmwit ra rc => rfl
  | nop => cases h
  | gcd rd ra rb => cases h
  | xgcd rd re ra rb => cases h
  | montmul rd ra rb rc =>
    simp only [bodyResult, montmulResult] at h
    split at h
    · cases h
    · split at h <;> cases h
  | modinv rd ra rc =>
    simp only [bodyResult, modinvResult] at h
    split at h
    · cases h
    · split at h <;> cases h
  | _ =>
    simp only [bodyResult, montr2Result, tomontResult, frommontResult, modredResult, modmulResult, modexpResult] at h
    split at h <;> cases h

end Sys2Proof.Machine
end

section
/-! PROOFS. The invariant of the machine, operation by operation (10_state.md R19, R27). -/

namespace Sys2Proof.Machine

/-! ## Completion -/

/-- A completed command leaves R27: BUSY is 0, and RESULT may be 1 only where the latch holds an RMWIT. -/
theorem State.complete_inv (r : CmdResult) (s : State) (h : s.Inv)
    (hr : ∀ ws, r = .ok ws true → opOf s.L = 0x0B#8) : (s.complete r).Inv := by
  obtain ⟨hlegal, hwf, -⟩ := h
  refine ⟨by simpa using hlegal, s.complete_regsWf r hwf, by simp, fun hres => ?_⟩
  cases r with
  | ok ws b =>
    obtain rfl : b = true := hres
    exact ⟨rfl, hr ws rfl⟩
  | err c => cases hres

theorem State.complete_err_inv (c : ErrCode) (s : State) (h : s.Inv) : (s.complete (.err c)).Inv :=
  s.complete_inv _ h fun _ hr => by cases hr

/-- A command whose opcode is the latched word's keeps the invariant. -/
theorem exec_inv (i : Instr) (s t : State) (h : s.Inv) (hop : opOf s.L = i.opcode) (ht : exec i s = .next t) :
    t.Inv := by
  rcases exec_next_cases i s t ht with ⟨c, -, rfl⟩ | ⟨-, rfl⟩
  · exact s.complete_err_inv c h
  · exact State.complete_inv _ (s.afterRead i.sources) h
      fun ws hr => hop.trans (opcode_of_bodyResult_true i s ws hr)

theorem engineStep_inv (s t : State) (h : s.Inv) (ht : engineStep s = .next t) : t.Inv := by
  rcases engineStep_next_cases s t ht with ⟨-, rfl⟩ | ⟨-, ⟨i, hd, he⟩ | ⟨-, rfl⟩⟩
  · exact h
  · exact exec_inv i s t h (opOf_of_decode_ok s.L i hd) he
  · exact s.complete_err_inv .illegal h

/-! ## Resets -/

theorem State.resetOf_inv (p : Params) (h : p.Legal) : (State.resetOf p).Inv :=
  ⟨h, State.resetOf_regsWf p, by simp [State.resetOf], by simp [State.resetOf]⟩

/-- RST gives a reset state but for the pending events and the count of free values, which the invariant ignores. -/
theorem State.powerOnReset_inv (s : State) (h : s.params.Legal) : s.powerOnReset.Inv :=
  State.resetOf_inv s.params h

theorem State.softReset_inv (s : State) (h : s.Inv) : s.softReset.Inv := by
  obtain ⟨hlegal, hwf, -⟩ := h
  exact ⟨hlegal, hwf, by simp, by simp⟩

/-! ## Host writes -/

theorem writeCtrl_inv (v : Word) (s : State) (h : s.Inv) : (writeCtrl v s).Inv := by
  rcases writeCtrl_cases v s with e | ⟨b, e⟩ | ⟨b, -, e⟩ <;> rw [e]
  · exact s.softReset_inv h
  · exact h
  · exact State.complete_err_inv .aborted { s with ie := b } h

theorem State.accept_inv (c : Word) (s : State) (h : s.Inv) : (s.accept c).Inv := by
  obtain ⟨hlegal, hwf, -⟩ := h
  exact ⟨hlegal, hwf, by simp, by simp⟩

theorem writeCmd_inv (c : Word) (s : State) (h : s.Inv) : (writeCmd c s).Inv := by
  unfold writeCmd
  split
  · exact h
  · exact s.accept_inv c h

/-- CLEAR may drop DONE, which R27 allows in every state. -/
theorem writeClear_inv (v : Word) (s : State) (h : s.Inv) : (writeClear v s).Inv := by
  obtain ⟨hlegal, hwf, hbusy, hresult⟩ := h
  refine ⟨hlegal, hwf, fun hb => ?_, hresult⟩
  obtain ⟨hdone, hres, herr⟩ := hbusy hb
  exact ⟨by simp [hdone], hres, herr⟩

theorem writeWindow_inv (i j : Nat) (v : Word) (s : State) (h : s.Inv) : (writeWindow i j v s).Inv := by
  unfold writeWindow
  split
  · exact h
  · obtain ⟨hlegal, hwf, hstatus⟩ := h
    exact ⟨hlegal, s.setWord_regsWf i j v hwf, hstatus⟩

theorem State.noAnswer_inv (s : State) (h : s.Inv) : s.noAnswer.Inv := h

theorem hostWrite_inv (off : Nat) (v : Word) (s : State) (h : s.Inv) : (hostWrite off v s).Inv := by
  rcases hostWrite_cases off v s with e | e | e | e | ⟨i, j, -, e⟩ | e <;> rw [e]
  · exact s.noAnswer_inv h
  · exact State.noAnswer_inv _ (writeCtrl_inv v s h)
  · exact State.noAnswer_inv _ (writeCmd_inv v s h)
  · exact State.noAnswer_inv _ (writeClear_inv v s h)
  · exact State.noAnswer_inv _ (writeWindow_inv i j v s h)
  · exact h

/-! ## Accesses and steps -/

theorem State.accessError_inv (k : BusKind) (s : State) (h : s.Inv) : (s.accessError k).Inv := h

/-- A read changes only fields the invariant does not speak of. -/
theorem hostRead_inv (off : Nat) (s t : State) (h : s.Inv) (ht : hostRead off s = .next t) : t.Inv := by
  rw [hostRead_next off s t ht]
  exact h

theorem hostAccess_inv (a : Access) (s t : State) (h : s.Inv) (ht : hostAccess a s = .next t) : t.Inv := by
  rcases hostAccess_cases a s with e | ⟨-, -, e⟩ | ⟨-, -, e⟩ <;> rw [e] at ht
  · cases ht
    exact s.accessError_inv a.kind h
  · exact hostRead_inv a.off s t h ht
  · cases ht
    exact hostWrite_inv a.off a.data s h

end Sys2Proof.Machine
end

section
/-! PROOFS. The obligations O53, O16, O17, O18, O21, O8, O48 and O54. -/

namespace Sys2Proof.Machine

/-- Settles O53, by the kind of the first pending event. -/
theorem stepKeepsTheInvariant : Obligations.StepKeepsTheInvariant := by
  intro s t h ht
  rcases step_cases s with ⟨-, e⟩ | ⟨a, es, -, e⟩ | ⟨es, -, e⟩ | ⟨k, addr, size, v, es, -, e⟩ <;> rw [e] at ht
  · exact engineStep_inv { s with events := s.events.tail } t h ht
  · exact hostAccess_inv a { s with events := es } t h ht
  · cases ht
    exact State.powerOnReset_inv { s with events := es } h.1
  · cases ht
    exact h

/-- Settles O16: `powMod` is the power, and its residue fits the register. -/
theorem modexpRaises : Obligations.ModexpRaises := by
  intro s rd ra rb rc hwf hruns
  refine ⟨_, exec_runs _ s hruns, fun hN => fails_of_bodyResult _ s _ ?_, fun hN => ?_⟩
  · simp [bodyResult, modexpResult, hN]
  · refine completesWith_of_bodyResult _ s rd _ hwf (hruns.reg_lt (by simp [Instr.usedRegs]))
      (s.mod_operand_lt 2 rc _ hN) ?_
    simp [bodyResult, modexpResult, hN, powMod_eq]

/-- Settles O17: the value written is `Nat.gcd` of the operands, which fits the register. -/
theorem gcdGivesTheGreatestCommonDivisor : Obligations.GcdGivesTheGreatestCommonDivisor := by
  intro s rd ra rb hwf hruns
  have hlt : Nat.gcd (s.opA ra) (s.opB rb) < 2 ^ s.params.width :=
    gcd_lt_of_lt _ _ _ (s.operand_lt 0 ra) (s.operand_lt 1 rb)
  refine ⟨_, Nat.gcd (s.opA ra) (s.opB rb), exec_runs _ s hruns,
    completesWith_of_bodyResult _ s rd _ hwf (hruns.reg_lt (by simp [Instr.usedRegs])) hlt rfl,
    Nat.gcd_dvd_left _ _, Nat.gcd_dvd_right _ _, fun d => Nat.dvd_gcd, fun hb => ?_, fun ha => ?_⟩
  · rw [hb, Nat.gcd_zero_right]
  · rw [ha, Nat.gcd_zero_left]

/-- Settles O18: both coefficients are staged in two's complement, and their bound (R69) makes them read back. -/
theorem xgcdGivesTheBezoutPair : Obligations.XgcdGivesTheBezoutPair := by
  refine ⟨fun s rd re ra rb hlegal hwf hruns => ?_, fun s rd ra rb => ?_⟩
  · have hne : rd ≠ re := by simpa [Instr.wellFormed] using hruns.wellFormed
    have hrd : rd.val < s.params.nreg := hruns.reg_lt (by simp [Instr.usedRegs])
    have hre : re.val < s.params.nreg := hruns.reg_lt (by simp [Instr.usedRegs])
    have hW : 2 ≤ s.params.width := by
      unfold Params.width
      omega
    obtain ⟨hboundx, hboundy⟩ :=
      abs_xgcd_lt s.params.width (s.opA ra) (s.opB rb) hW (s.operand_lt 0 ra) (s.operand_lt 1 rb)
    have hwrites := two_writes s [ra, rb] rd re (twos s.params.width (xgcd (s.opA ra) (s.opB rb)).1)
      (twos s.params.width (xgcd (s.opA ra) (s.opB rb)).2) hwf hne hrd hre
    simp only [Nat.mod_eq_of_lt (twos_lt _ _)] at hwrites
    obtain ⟨hwrd, hwre, -, -⟩ := hwrites 0
    refine ⟨_, exec_runs _ s hruns, completes_afterRead s _ _, hwrd, hwre, keepsOtherRegs_complete s _ _ _ _ rfl,
      fun f => ?_⟩
    obtain ⟨-, -, hx, hy⟩ := hwrites f
    obtain ⟨hmodx, hsextx⟩ := residue_and_sext_of_eq_twos hx (by omega) hboundx
    obtain ⟨hmody, hsexty⟩ := residue_and_sext_of_eq_twos hy (by omega) hboundy
    exact ⟨hmodx, hmody, hsextx, hsexty⟩
  · exact ⟨_, exec_illFormed _ s (by simp [Instr.wellFormed]), fails_complete s _⟩

/-- Settles O21: Bézout's identity gives the inverse, coprimality its uniqueness. -/
theorem rinvIsTheUniqueInverse : Obligations.RinvIsTheUniqueInverse :=
  ⟨fun W N hN _ => ⟨coprime_two_pow_of_odd W N hN, isRinv_montInv W N hN,
    fun _ hr => hr.unique hN (isRinv_montInv W N hN)⟩, montInv_one, fun _ _ _ _ => rfl⟩

/-- Settles O8, by the step's equation for each first event. -/
theorem stepTakesTheFirstPendingEvent : Obligations.StepTakesTheFirstPendingEvent :=
  ⟨step_access, step_rst, fun s hnil hidle => (step_nil s hnil).trans (engineStep_idle s hidle)⟩

/-- Settles O48: the bus subtracts BASE inside the aperture and drops the access outside it. -/
theorem busDecodesOnlyTheAperture : Obligations.BusDecodesOnlyTheAperture := by
  intro s k addr size v es hev
  rw [step_bus s k addr size v es hev, busAccess]
  refine ⟨fun off hoff haddr => ?_, fun hout => ?_⟩
  · rw [step_access { s with events := .access ⟨k, off, size, v⟩ :: es } ⟨k, off, size, v⟩ es rfl,
      if_pos ⟨by simp [haddr], by simpa [haddr] using hoff⟩]
    simp [haddr]
  · exact if_neg fun hin => by
      obtain ⟨hlo, hhi⟩ := hin
      dsimp only at hlo hhi
      omega

/-- Settles O54: reset is a good state for all legal parameters, and the production parameters are legal. -/
theorem resetMeetsTheInvariant : Obligations.ResetMeetsTheInvariant :=
  ⟨fun p hp => ⟨State.resetOf_inv p hp, rfl, rfl⟩, State.resetOf_inv Params.production (by decide), rfl, rfl⟩

end Sys2Proof.Machine
end

section
/-! PROOFS. What a command changes and what it leaves alone, and when it is the fault of R32 (10_state.md R20, R32;
44_control.md R80, R81). -/

namespace Sys2Proof.Machine

/-! ## The frame of a command -/

/-- A command that fails a common check writes no register, and one that runs writes its destinations. -/
theorem exec_keepsOtherRegs (i : Instr) (s t : State) (h : exec i s = .next t) : KeepsOtherRegs s t i.dests := by
  rcases exec_next_cases i s t h with ⟨c, -, rfl⟩ | ⟨-, rfl⟩
  · exact fun _ _ _ => rfl
  · cases hb : bodyResult i s with
    | ok ws b => exact keepsOtherRegs_complete s i.sources i.dests ws b (bodyResult_writes i s ws b hb)
    | err c => exact fun _ _ _ => rfl

/-- Every command that goes on is a completion (44_control.md R81). -/
theorem exec_completes (i : Instr) (s t : State) (h : exec i s = .next t) : Completes s t t.result t.errcode := by
  rcases exec_next_cases i s t h with ⟨c, -, rfl⟩ | ⟨-, rfl⟩
  · exact (fails_complete s c).1
  · exact completes_afterRead s i.sources (bodyResult i s)

/-- The count of free values stays where every source is written. -/
theorem exec_freeCount_of_allWritten (i : Instr) (s t : State) (h : exec i s = .next t)
    (hw : s.allWritten i.sources = true) : t.freeCount = s.freeCount := by
  rcases exec_next_cases i s t h with ⟨c, -, rfl⟩ | ⟨-, rfl⟩
  · simp
  · simp [hw]

/-! ## Commands with an unwritten source -/

theorem State.ReadsUnwrittenSource.allWritten {s : State} {i : Instr} (h : s.ReadsUnwrittenSource i) :
    s.allWritten i.sources = false :=
  (s.allWritten_eq_false i.sources).mpr h.2

theorem exec_fault_of_unwritten (i : Instr) (s : State) (h : s.ReadsUnwrittenSource i)
    (hfault : s.params.unwritten = .fault) : exec i s = .fault .unwrittenOperand := by
  obtain ⟨hlegal, hregs⟩ := h.1
  rw [exec_eq_command i s hlegal]
  exact State.command_faults _ _ _ s hregs ((s.readable_eq_false _).mpr ⟨hfault, h.allWritten⟩)

theorem exec_counts_unwritten (i : Instr) (s : State) (h : s.ReadsUnwrittenSource i)
    (hfree : s.params.unwritten = .free) : ∃ t, exec i s = .next t ∧ t.freeCount = s.freeCount + 1 := by
  have hruns : s.Runs i := ⟨h.1, by simp [State.readable, hfree]⟩
  exact ⟨_, exec_runs i s hruns, by simp [h.allWritten]⟩

/-- A command that reads no unwritten source fails a common check or finds every source written. -/
theorem exec_goes_on (i : Instr) (s : State) (h : ¬s.ReadsUnwrittenSource i) :
    ∃ t, exec i s = .next t ∧ t.freeCount = s.freeCount := by
  have hwritten (hp : s.PassesChecks i) : s.allWritten i.sources = true := by
    by_contra hw
    exact h ⟨hp, (s.allWritten_eq_false _).mp (by simpa using hw)⟩
  rcases exec_cases i s with ⟨c, -, e⟩ | ⟨⟨hp, -⟩, e⟩ | ⟨hp, hr, -⟩
  · exact ⟨_, e, by simp⟩
  · exact ⟨_, e, by simp [hwritten hp]⟩
  · obtain ⟨-, hw⟩ := (s.readable_eq_false _).mp hr
    simp [hwritten hp] at hw

/-- Settles O33, by the ways a command goes on. -/
theorem commandFrame : Obligations.CommandFrame :=
  fun i s t h => ⟨exec_completes i s t h, exec_keepsOtherRegs i s t h, exec_freeCount_of_allWritten i s t h⟩

/-- Settles O31: the common checks come first, and then the sources. -/
theorem unwrittenSourceFaults : Obligations.UnwrittenSourceFaults :=
  fun s i => ⟨exec_fault_of_unwritten i s, exec_counts_unwritten i s, exec_goes_on i s⟩

end Sys2Proof.Machine
end

section
/-! PROOFS. What a Host access and a step do to the operand words (10_state.md R20, 20_memory.md R37). -/

namespace Sys2Proof.Machine

/-! ## Operations that leave the register file -/

theorem writeCtrl_x (v : Word) (s : State) : (writeCtrl v s).x = s.x := by
  rcases writeCtrl_cases v s with e | ⟨b, e⟩ | ⟨b, -, e⟩ <;> rw [e] <;> rfl

theorem writeCmd_x (c : Word) (s : State) : (writeCmd c s).x = s.x := by
  unfold writeCmd
  split <;> rfl

theorem hostRead_x (off : Nat) (s t : State) (h : hostRead off s = .next t) : t.x = s.x := by
  rw [hostRead_next off s t h]

/-! ## Operations that write it -/

/-- A window write changes at most its own word, and only while the block is idle. -/
theorem writeWindow_word_ne (k l : Nat) (v : Word) (s : State) (i j : Nat)
    (h : (writeWindow k l v s).word i j ≠ s.word i j) :
    s.busy = false ∧ i = k ∧ j = l ∧ (writeWindow k l v s).word i j = some v := by
  unfold writeWindow at h ⊢
  split at h
  · exact absurd rfl h
  · rename_i hb
    rw [if_neg hb]
    obtain ⟨rfl, rfl⟩ : i = k ∧ j = l := by
      by_contra hne
      exact h (s.setWord_word_other k l v i j hne)
    exact ⟨by simpa using hb, rfl, rfl, (s.setWord_word_or i j v).resolve_right h⟩

/-- Of all Host writes only an idle block's window write changes an operand word. -/
theorem hostWrite_word_ne (off : Nat) (v : Word) (s : State) (i j : Nat)
    (h : (hostWrite off v s).word i j ≠ s.word i j) :
    s.busy = false ∧ regionOf s.params off = .window i j ∧ (hostWrite off v s).word i j = some v := by
  rcases hostWrite_cases off v s with e | e | e | e | ⟨k, l, hreg, e⟩ | e <;> rw [e] at h ⊢
  · exact absurd rfl h
  · exact absurd (State.word_congr s _ (writeCtrl_x v s) i j) h
  · exact absurd (State.word_congr s _ (writeCmd_x v s) i j) h
  · exact absurd rfl h
  · obtain ⟨hidle, rfl, rfl, hword⟩ := writeWindow_word_ne k l v s i j h
    exact ⟨hidle, hreg, hword⟩
  · exact absurd rfl h

/-- A supported access to a window region is the 32-bit access at that word's offset. -/
theorem access_of_window (p : Params) (a : Access) (i j : Nat) (hsup : a.supported = true)
    (hreg : regionOf p a.off = .window i j) :
    i < p.nreg ∧ j < p.wwords ∧ a = { kind := a.kind, off := windowOffset i j, size := 4, data := a.data } := by
  obtain ⟨⟨hsize, halign⟩, -⟩ : (a.size = 4 ∧ a.off % 4 = 0) ∧ a.off < 0x4000 := by
    simpa [Access.supported] using hsup
  obtain ⟨hi, hj, hoff⟩ := regionOf_eq_window p a.off i j halign hreg
  exact ⟨hi, hj, by rw [← hoff, ← hsize]⟩

/-- A Host access that changes an operand word is an aligned 32-bit write at its window offset, to an idle block. -/
theorem hostAccess_word_ne (a : Access) (s t : State) (i j : Nat) (ht : hostAccess a s = .next t)
    (h : t.word i j ≠ s.word i j) :
    s.busy = false ∧ i < s.params.nreg ∧ j < s.params.wwords
      ∧ a = { kind := .write, off := windowOffset i j, size := 4, data := a.data } ∧ t.word i j = some a.data := by
  rcases hostAccess_cases a s with e | ⟨-, -, e⟩ | ⟨hsup, hkind, e⟩ <;> rw [e] at ht
  · cases ht
    exact absurd rfl h
  · exact absurd (State.word_congr s t (hostRead_x a.off s t ht) i j) h
  · cases ht
    obtain ⟨hidle, hreg, hword⟩ := hostWrite_word_ne a.off a.data s i j h
    obtain ⟨hi, hj, ha⟩ := access_of_window s.params a i j hsup hreg
    exact ⟨hidle, hi, hj, by rw [← hkind]; exact ha, hword⟩

/-- An Engine step that changes an operand word completes a legal command that names its register. -/
theorem engineStep_word_ne (s t : State) (i j : Nat) (ht : engineStep s = .next t) (h : t.word i j ≠ s.word i j) :
    s.busy = true ∧ ∃ c, decode s.L = .ok c ∧ ∃ k ∈ c.dests, i = k.val := by
  rcases engineStep_next_cases s t ht with ⟨-, rfl⟩ | ⟨hbusy, ⟨c, hd, he⟩ | ⟨-, rfl⟩⟩
  · exact absurd rfl h
  · refine ⟨hbusy, c, hd, ?_⟩
    by_contra hnot
    exact h (exec_keepsOtherRegs c s t he i j fun k hk hik => hnot ⟨k, hk, hik⟩)
  · exact absurd rfl h

/-- An access that a step runs stands first among the events, at its offset or at its system address. -/
theorem event_of_access {s : State} {a : Access} {es : List Event} {k : BusKind} {off size : Nat} {v : Word}
    (hev : s.events = .access a :: es ∨ ∃ addr, s.events = .bus a.kind addr a.size a.data :: es
      ∧ s.params.base ≤ addr ∧ addr < s.params.base + 0x4000 ∧ a.off = addr - s.params.base)
    (ha : a = { kind := k, off := off, size := size, data := v }) :
    s.events = .access { kind := k, off := off, size := size, data := v } :: es
      ∨ s.events = .bus k (s.params.base + off) size v :: es := by
  subst ha
  rcases hev with hev | ⟨addr, hev, hlo, -, hoff⟩
  · exact .inl hev
  · obtain rfl : addr = s.params.base + off := by
      dsimp only at hoff
      omega
    exact .inr hev

/-- Settles O56, by the kind of the first pending event. -/
theorem operandWordsChangeOnlyAsStated : Obligations.OperandWordsChangeOnlyAsStated := by
  intro s t i j _ ht hne
  rcases step_cases s with ⟨hev, e⟩ | ⟨a, es, hev, e⟩ | ⟨es, hev, -⟩ | ⟨k, addr, size, v, es, -, e⟩
  · obtain ⟨hbusy, hcmd⟩ := engineStep_word_ne { s with events := s.events.tail } t i j (e.symm.trans ht) hne
    exact .inl ⟨hbusy, hev, hcmd⟩
  · obtain ⟨hidle, hi, hj, ha, hword⟩ := hostAccess_word_ne a { s with events := es } t i j (e.symm.trans ht) hne
    exact .inr (.inl ⟨hidle, hi, hj, a.data, es, event_of_access hev ha, hword⟩)
  · exact .inr (.inr ⟨es, hev⟩)
  · cases e.symm.trans ht
    exact absurd rfl hne

end Sys2Proof.Machine
end

section
/-! PROOFS. Reads of the operand window and the map of the aperture (10_state.md R21, R32; 20_memory.md R37, R38). -/

namespace Sys2Proof.Machine

/-! ## A word of a number -/

/-- Word `j` of the number that words make is the `j`-th of them (20_memory.md R37). -/
theorem wordsToNat_div_mod (ws : List Word) (j : Nat) (hj : j < ws.length) :
    wordsToNat ws / 2 ^ (32 * j) % 2 ^ 32 = ws[j].toNat := by
  induction ws generalizing j with
  | nil => simp at hj
  | cons w ws ih =>
    have hw : w.toNat < 2 ^ 32 := w.isLt
    cases j with
    | zero => simpa [wordsToNat] using hw
    | succ j =>
      have hpow : 2 ^ (32 * (j + 1)) = 2 ^ 32 * 2 ^ (32 * j) := by rw [← pow_add]; congr 1; omega
      have htail : wordsToNat (w :: ws) / 2 ^ 32 = wordsToNat ws := by
        simp only [wordsToNat]
        omega
      rw [hpow, ← Nat.div_div_eq_div_mul, htail, ih j (by simpa using hj)]
      rfl

/-- A written word of a register is its bits 32j+31 : 32j through any operand field. -/
theorem State.operand_word (s : State) (f : Nat) (k : RegIx) (j : Nat) (w : Word) (hj : j < s.params.wwords)
    (hw : s.word k.val j = some w) : s.operand f k / 2 ^ (32 * j) % 2 ^ 32 = w.toNat := by
  rw [State.operand, wordsToNat_div_mod _ j (by simpa using hj)]
  simp [State.readWord, hw]

/-! ## A read of a window word -/

theorem readWindow_written (s : State) (i j : Nat) (w : Word) (h : s.word i j = some w) :
    readWindow i j s = .next (s.answer w) := by
  simp [readWindow, h]

theorem readWindow_fault (s : State) (i j : Nat) (h : s.word i j = none) (hfault : s.params.unwritten = .fault) :
    readWindow i j s = .fault .unwrittenRead := by
  simp [readWindow, h, hfault]

theorem readWindow_free (s : State) (i j : Nat) (h : s.word i j = none) (hfree : s.params.unwritten = .free) :
    readWindow i j s = .next { s.answer (s.readWord 3 i j) with freeCount := s.freeCount + 1 } := by
  simp [readWindow, h, hfree]

/-- The step of a Host read at a window offset. -/
theorem step_read_window (s : State) (i j : Nat) (es : List Event) (hp : s.params.Legal) (hi : i < s.params.nreg)
    (hj : j < s.params.wwords) (h : s.events = hostRD (windowOffset i j) :: es) :
    step s = readWindow i j { s with events := es } := by
  rw [step_read s _ es h (windowOffset_aligned i j) (windowOffset_lt s.params i j hp hi hj),
    hostRead_window { s with events := es } i j hp hi hj]

/-- Settles O36, by the word's state and the treatment of unwritten words. -/
theorem windowReadReturnsTheWord : Obligations.WindowReadReturnsTheWord := by
  refine ⟨fun s i j es hp hi hj hev => ?_, fun s f k j w => s.operand_word f k j w⟩
  rw [step_read_window s i j es hp hi hj hev]
  exact ⟨readWindow_written { s with events := es } i j, readWindow_fault { s with events := es } i j,
    fun hw hfree => ⟨_, readWindow_free { s with events := es } i j hw hfree⟩⟩

/-! ## Aligned 32-bit accesses, mapped and unmapped -/

theorem hostAccess_read (off : Nat) (v : Word) (s : State) (ha : off % 4 = 0) (hl : off < 0x4000) :
    hostAccess { kind := .read, off := off, size := 4, data := v } s = hostRead off s := by
  rw [hostAccess, if_pos (by simp [Access.supported, ha, hl])]

theorem hostAccess_write (off : Nat) (v : Word) (s : State) (ha : off % 4 = 0) (hl : off < 0x4000) :
    hostAccess { kind := .write, off := off, size := 4, data := v } s = .next (hostWrite off v s) := by
  rw [hostAccess, if_pos (by simp [Access.supported, ha, hl])]

/-- The offsets of the six registers (10_state.md R21). -/
abbrev registerOffsets : List Nat := [0x0000, 0x0004, 0x0008, 0x000C, 0x0010, 0x0014]

/-- R38: what is neither a register nor a window word is unmapped. -/
theorem regionOf_unmapped (p : Params) (off : Nat) (ha : off % 4 = 0) (hreg : off ∉ registerOffsets)
    (hwin : ∀ i j, i < p.nreg → j < p.wwords → off ≠ windowOffset i j) : regionOf p off = .unmapped := by
  simp only [List.mem_cons, List.not_mem_nil, or_false, not_or] at hreg
  obtain ⟨hid, hconfig, hctrl, hcmd, hstatus, hclear⟩ := hreg
  unfold regionOf
  rw [if_neg hid, if_neg hconfig, if_neg hctrl, if_neg hcmd, if_neg hstatus, if_neg hclear]
  split
  · rfl
  · exact if_neg fun ⟨hi, hj⟩ => hwin _ _ hi hj (by unfold windowOffset; omega)

theorem hostAccess_unmapped (k : BusKind) (off : Nat) (v : Word) (s : State) (ha : off % 4 = 0) (hl : off < 0x4000)
    (h : regionOf s.params off = .unmapped) :
    hostAccess { kind := k, off := off, size := 4, data := v } s = .next (s.accessError k) := by
  cases k with
  | read => rw [hostAccess_read off v s ha hl, hostRead, h]
  | write => rw [hostAccess_write off v s ha hl, hostWrite, h]

/-! ## ACCERR after an access to a mapped offset -/

/-- A read of a register answers and changes nothing else. -/
theorem hostRead_register (off : Nat) (s : State) (h : off ∈ registerOffsets) :
    ∃ d, hostRead off s = .next (s.answer d) := by
  simp only [List.mem_cons, List.not_mem_nil, or_false] at h
  rcases h with rfl | rfl | rfl | rfl | rfl | rfl <;> exact ⟨_, rfl⟩

theorem writeCtrl_accerr_le (v : Word) (s : State) (h : (writeCtrl v s).accerr = true) : s.accerr = true := by
  rcases writeCtrl_cases v s with e | ⟨b, e⟩ | ⟨b, -, e⟩ <;> rw [e] at h
  · cases h
  · exact h
  · exact h

theorem writeCmd_accerr (c : Word) (s : State) : (writeCmd c s).accerr = s.accerr := by
  unfold writeCmd
  split <;> rfl

theorem writeWindow_accerr (i j : Nat) (v : Word) (s : State) : (writeWindow i j v s).accerr = s.accerr := by
  unfold writeWindow
  split <;> rfl

/-- A write of a register never sets ACCERR, and only CTRL's and CLEAR's can clear it. -/
theorem hostWrite_register_accerr (off : Nat) (v : Word) (s : State) (h : off ∈ registerOffsets) :
    ((hostWrite off v s).accerr = true → s.accerr = true)
      ∧ (off ∉ [0x0008, 0x0014] → (hostWrite off v s).accerr = s.accerr) := by
  simp only [List.mem_cons, List.not_mem_nil, or_false] at h
  rcases h with rfl | rfl | rfl | rfl | rfl | rfl
  · exact ⟨id, fun _ => rfl⟩
  · exact ⟨id, fun _ => rfl⟩
  · exact ⟨writeCtrl_accerr_le v s, fun hn => absurd (by simp) hn⟩
  · rw [hostWrite_cmd, State.noAnswer_accerr, writeCmd_accerr]
    exact ⟨id, fun _ => rfl⟩
  · exact ⟨id, fun _ => rfl⟩
  · rw [hostWrite_clear, State.noAnswer_accerr, State.writeClear_accerr]
    exact ⟨fun hc => (Bool.and_eq_true_iff.mp hc).1, fun hn => absurd (by simp) hn⟩

/-- Settles O39, by the region of the offset and the kind of access. -/
theorem unmappedOffsetsSetAccerr : Obligations.UnmappedOffsetsSetAccerr := by
  intro s k off v es hp ha hl hev
  rw [step_access s _ es hev]
  refine ⟨fun ⟨hreg, hwin⟩ => ?_, fun hmapped => ?_⟩
  · rw [hostAccess_unmapped k off v { s with events := es } ha hl (regionOf_unmapped s.params off ha hreg hwin)]
    cases k <;> rfl
  cases k with
  | read =>
    rw [hostAccess_read off v _ ha hl]
    rcases hmapped with hreg | ⟨i, j, hi, hj, rfl, hread⟩
    · obtain ⟨d, e⟩ := hostRead_register off { s with events := es } hreg
      exact ⟨_, e, id, fun _ => rfl⟩
    · rw [hostRead_window { s with events := es } i j hp hi hj]
      cases hw : s.word i j with
      | some w => exact ⟨_, readWindow_written { s with events := es } i j w hw, id, fun _ => rfl⟩
      | none => exact ⟨_, readWindow_free { s with events := es } i j hw (hread rfl hw), id, fun _ => rfl⟩
  | write =>
    rw [hostAccess_write off v _ ha hl]
    rcases hmapped with hreg | ⟨i, j, hi, hj, rfl, -⟩
    · obtain ⟨hle, hkeep⟩ := hostWrite_register_accerr off v { s with events := es } hreg
      exact ⟨_, rfl, hle, fun hn => hkeep (hn.resolve_left (by decide))⟩
    · rw [hostWrite_window { s with events := es } i j v hp hi hj]
      exact ⟨_, rfl, by simp [writeWindow_accerr]⟩

end Sys2Proof.Machine
end

section
/-! PROOFS. When a step stops, and how it counts the reads of unwritten words (10_state.md R32; 60_exceptions.md
R85). -/

namespace Sys2Proof.Machine

/-! ## The count of free values, operation by operation -/

/-- A Host read goes on with the count as before, or it is the read of an unwritten window word. -/
theorem hostRead_cases (off : Nat) (s : State) :
    (∃ t, hostRead off s = .next t ∧ t.freeCount = s.freeCount)
    ∨ ∃ i j, regionOf s.params off = .window i j ∧ s.word i j = none ∧ hostRead off s = readWindow i j s := by
  unfold hostRead
  split
  case h_7 i j hreg =>
    cases hw : s.word i j with
    | none => exact .inr ⟨i, j, hreg, hw, rfl⟩
    | some w => exact .inl ⟨_, readWindow_written s i j w hw, rfl⟩
  all_goals exact .inl ⟨_, rfl, rfl⟩

theorem writeCtrl_freeCount (v : Word) (s : State) : (writeCtrl v s).freeCount = s.freeCount := by
  rcases writeCtrl_cases v s with e | ⟨b, e⟩ | ⟨b, -, e⟩ <;> rw [e] <;> rfl

theorem writeCmd_freeCount (c : Word) (s : State) : (writeCmd c s).freeCount = s.freeCount := by
  unfold writeCmd
  split <;> rfl

theorem writeWindow_freeCount (i j : Nat) (v : Word) (s : State) :
    (writeWindow i j v s).freeCount = s.freeCount := by
  unfold writeWindow
  split <;> rfl

theorem hostWrite_freeCount (off : Nat) (v : Word) (s : State) : (hostWrite off v s).freeCount = s.freeCount := by
  rcases hostWrite_cases off v s with e | e | e | e | ⟨i, j, -, e⟩ | e <;> rw [e]
  · rfl
  · exact writeCtrl_freeCount v s
  · exact writeCmd_freeCount v s
  · rfl
  · exact writeWindow_freeCount i j v s
  · rfl

/-! ## Either a step goes on with the count as before, or it is a read that R32 names -/

/-- A Host access reads an unwritten window word, or it goes on. -/
theorem hostAccess_reads_or_goes_on (a : Access) (s : State) :
    (∃ t, hostAccess a s = .next t ∧ t.freeCount = s.freeCount)
    ∨ ∃ i j, i < s.params.nreg ∧ j < s.params.wwords ∧ s.word i j = none
        ∧ a = { kind := .read, off := windowOffset i j, size := 4, data := a.data }
        ∧ hostAccess a s = readWindow i j s := by
  rcases hostAccess_cases a s with e | ⟨hsup, hkind, e⟩ | ⟨-, -, e⟩
  · exact .inl ⟨_, e, rfl⟩
  · rw [e]
    refine (hostRead_cases a.off s).imp id fun ⟨i, j, hreg, hw, e⟩ => ?_
    obtain ⟨hi, hj, ha⟩ := access_of_window s.params a i j hsup hreg
    exact ⟨i, j, hi, hj, hw, by rw [← hkind]; exact ha, e⟩
  · exact .inl ⟨_, e, hostWrite_freeCount a.off a.data s⟩

/-- The Engine's step runs a command with an unwritten source, or it goes on. -/
theorem engineStep_reads_or_goes_on (s : State) :
    (∃ t, engineStep s = .next t ∧ t.freeCount = s.freeCount)
    ∨ ∃ i, s.busy = true ∧ decode s.L = .ok i ∧ s.ReadsUnwrittenSource i ∧ engineStep s = exec i s := by
  cases hb : s.busy with
  | false => exact .inl ⟨s, engineStep_idle s hb, rfl⟩
  | true =>
    cases hd : decode s.L with
    | error e => exact .inl ⟨_, engineStep_illegal s e hb hd, rfl⟩
    | ok i =>
      rw [engineStep_ok s i hb hd]
      by_cases hr : s.ReadsUnwrittenSource i
      · exact .inr ⟨i, rfl, rfl, hr, rfl⟩
      · exact .inl (exec_goes_on i s hr)

/-- A step goes on with the count as before, reads an unwritten window word, or runs a command with an unwritten
source. -/
theorem step_reads_or_goes_on (s : State) :
    (∃ t, step s = .next t ∧ t.freeCount = s.freeCount)
    ∨ (s.ReadsUnwrittenWord ∧ ∃ i j es, s.word i j = none ∧ step s = readWindow i j { s with events := es })
    ∨ (∃ i es, s.CompletesNext i ∧ s.ReadsUnwrittenSource i ∧ step s = exec i { s with events := es }) := by
  rcases step_cases s with ⟨hev, e⟩ | ⟨a, es, hev, e⟩ | ⟨es, -, e⟩ | ⟨k, addr, size, v, es, -, e⟩
  · rcases engineStep_reads_or_goes_on { s with events := s.events.tail } with ⟨t, he, hf⟩ | ⟨i, hb, hd, hr, he⟩
    · exact .inl ⟨t, e.trans he, hf⟩
    · exact .inr (.inr ⟨i, _, ⟨hb, hd, hev⟩, hr, e.trans he⟩)
  · rcases hostAccess_reads_or_goes_on a { s with events := es } with ⟨t, he, hf⟩ | ⟨i, j, hi, hj, hw, ha, he⟩
    · exact .inl ⟨t, e.trans he, hf⟩
    · exact .inr (.inl ⟨⟨i, j, a.data, es, hi, hj, hw, event_of_access hev ha⟩, i, j, es, hw, e.trans he⟩)
  · exact .inl ⟨_, e, rfl⟩
  · exact .inl ⟨_, e, rfl⟩

/-! ## The steps that R32 names -/

/-- The step of a Host read of an unwritten window word, at its offset or its system address. -/
theorem step_readsUnwrittenWord (s : State) (hp : s.params.Legal) (h : s.ReadsUnwrittenWord) :
    ∃ i j es, s.word i j = none ∧ step s = readWindow i j { s with events := es } := by
  obtain ⟨i, j, v, es, hi, hj, hw, hev⟩ := h
  have hlt := windowOffset_lt s.params i j hp hi hj
  have haccess (u : State) (hparams : u.params = s.params)
      (hu : u.events = .access { kind := .read, off := windowOffset i j, size := 4, data := v } :: es) :
      step u = readWindow i j { u with events := es } := by
    rw [step_access u _ es hu, hostAccess_read _ v _ (windowOffset_aligned i j) hlt]
    exact hostRead_window _ i j (hparams ▸ hp) (hparams ▸ hi) (hparams ▸ hj)
  rcases hev with hev | hev
  · exact ⟨i, j, es, hw, haccess s rfl hev⟩
  · refine ⟨i, j, es, hw, ?_⟩
    rw [(busDecodesOnlyTheAperture s .read _ 4 v es hev).1 _ hlt rfl]
    exact haccess _ rfl rfl

/-- The step of a completion of the latched command. -/
theorem step_completesNext (s : State) (i : Instr) (h : s.CompletesNext i) :
    step s = exec i { s with events := s.events.tail } := by
  obtain ⟨hb, hd, hev | ⟨es, hev⟩⟩ := h
  · rw [step_nil s hev, engineStep_ok s i hb hd, hev, List.tail_nil, ← hev]
  · rw [step_engine s es hev, engineStep_ok { s with events := es } i hb hd, hev, List.tail_cons]

/-- Settles O55: a step goes on, or it is one of the two reads of R32, whose outcome `params.unwritten` fixes. -/
theorem onlyUnwrittenReadsStop : Obligations.OnlyUnwrittenReadsStop := by
  refine fun s => ⟨fun hfree => ?_, fun hp =>
    ⟨fun hword hfault => ?_, fun i hnext hsrc hfault => ?_, ?_, fun hnot => ?_⟩⟩
  · rcases step_reads_or_goes_on s with ⟨t, e, -⟩ | ⟨-, i, j, es, hw, e⟩ | ⟨i, es, -, hsrc, e⟩ <;> rw [e]
    · exact ⟨t, rfl⟩
    · exact ⟨_, readWindow_free { s with events := es } i j hw hfree⟩
    · obtain ⟨t, ht, -⟩ := exec_counts_unwritten i { s with events := es } hsrc hfree
      exact ⟨t, ht⟩
  · obtain ⟨i, j, es, hw, e⟩ := step_readsUnwrittenWord s hp hword
    rw [e]
    exact readWindow_fault { s with events := es } i j hw hfault
  · rw [step_completesNext s i hnext]
    exact exec_fault_of_unwritten i { s with events := s.events.tail } hsrc hfault
  · rintro (hword | ⟨i, hnext, hsrc⟩) hfree
    · obtain ⟨i, j, es, hw, e⟩ := step_readsUnwrittenWord s hp hword
      exact ⟨_, e.trans (readWindow_free { s with events := es } i j hw hfree), rfl⟩
    · rw [step_completesNext s i hnext]
      exact exec_counts_unwritten i { s with events := s.events.tail } hsrc hfree
  · rcases step_reads_or_goes_on s with hnext | ⟨hword, -⟩ | ⟨i, es, hnext, hsrc, -⟩
    · exact hnext
    · exact absurd (.inl hword) hnot
    · exact absurd (.inr ⟨i, hnext, hsrc⟩) hnot

end Sys2Proof.Machine
end

section
/-! PROOFS. What sets DONE and RESULT (10_state.md R26, R30). -/

namespace Sys2Proof.Machine

/-! ## The Engine -/

/-- Only an RMWIT has the opcode 0x0B. -/
theorem eq_rmwit_of_opcode (i : Instr) (h : i.opcode = 0x0B#8) : ∃ ra rc, i = .rmwit ra rc := by
  cases i with
  | rmwit ra rc => exact ⟨ra, rc, rfl⟩
  | _ => exact absurd h (by simp [Instr.opcode])

/-- A command that leaves RESULT 1 is an RMWIT without error. -/
theorem exec_result_true (i : Instr) (s t : State) (h : exec i s = .next t) (hres : t.result = true) :
    (∃ ra rc, i = .rmwit ra rc) ∧ t.errcode = .none := by
  rcases exec_next_cases i s t h with ⟨c, -, rfl⟩ | ⟨-, rfl⟩
  · cases hres
  · cases hb : bodyResult i s with
    | err c =>
      rw [hb] at hres
      cases hres
    | ok ws b =>
      rw [hb] at hres
      obtain rfl : b = true := hres
      exact ⟨eq_rmwit_of_opcode i (opcode_of_bodyResult_true i s ws hb), rfl⟩

/-- The Engine sets DONE only by ending the command in progress. -/
theorem engineStep_done (s t : State) (h : engineStep s = .next t) (h0 : s.done = false) (h1 : t.done = true) :
    s.busy = true ∧ t.busy = false := by
  rcases engineStep_next_cases s t h with ⟨-, rfl⟩ | ⟨hbusy, ⟨i, -, he⟩ | ⟨-, rfl⟩⟩
  · rw [h0] at h1
    cases h1
  · exact ⟨hbusy, (exec_completes i s t he).1⟩
  · exact ⟨hbusy, rfl⟩

/-- The Engine sets RESULT only by completing an RMWIT without error. -/
theorem engineStep_result (s t : State) (h : engineStep s = .next t) (h0 : s.result = false) (h1 : t.result = true) :
    s.busy = true ∧ (∃ ra rc, decode s.L = .ok (.rmwit ra rc)) ∧ t.errcode = .none ∧ t.done = true := by
  rcases engineStep_next_cases s t h with ⟨-, rfl⟩ | ⟨hbusy, ⟨i, hd, he⟩ | ⟨-, rfl⟩⟩
  · rw [h0] at h1
    cases h1
  · obtain ⟨⟨ra, rc, rfl⟩, herr⟩ := exec_result_true i s t he h1
    obtain ⟨-, hdone, -⟩ := exec_completes _ s t he
    exact ⟨hbusy, ⟨ra, rc, hd⟩, herr, hdone⟩
  · cases h1

/-! ## The Host -/

/-- From `s` to `t` RESULT is not set, and DONE only where a command in progress ends: all a Host access can do. -/
def SetsDoneOnlyByAbort (s t : State) : Prop :=
  (t.result = true → s.result = true) ∧ (t.done = true → s.done = true ∨ s.busy = true ∧ t.busy = false)

/-- Operations that change neither flag, or clear them. -/
theorem setsDoneOnlyByAbort_of_le (s t : State) (hres : t.result = true → s.result = true)
    (hdone : t.done = true → s.done = true) : SetsDoneOnlyByAbort s t :=
  ⟨hres, fun h => .inl (hdone h)⟩

theorem writeCtrl_setsDoneOnlyByAbort (v : Word) (s : State) : SetsDoneOnlyByAbort s (writeCtrl v s) := by
  rcases writeCtrl_cases v s with e | ⟨b, e⟩ | ⟨b, hb, e⟩ <;> rw [e]
  · exact setsDoneOnlyByAbort_of_le s _ (by simp) (by simp)
  · exact setsDoneOnlyByAbort_of_le s _ id id
  · exact ⟨by simp, fun _ => .inr ⟨hb, rfl⟩⟩

theorem writeCmd_setsDoneOnlyByAbort (c : Word) (s : State) : SetsDoneOnlyByAbort s (writeCmd c s) := by
  unfold writeCmd
  split
  · exact setsDoneOnlyByAbort_of_le s _ id id
  · exact setsDoneOnlyByAbort_of_le s _ (by simp) (by simp)

theorem writeWindow_setsDoneOnlyByAbort (i j : Nat) (v : Word) (s : State) :
    SetsDoneOnlyByAbort s (writeWindow i j v s) := by
  unfold writeWindow
  split <;> exact setsDoneOnlyByAbort_of_le s _ id id

theorem hostWrite_setsDoneOnlyByAbort (off : Nat) (v : Word) (s : State) :
    SetsDoneOnlyByAbort s (hostWrite off v s) := by
  rcases hostWrite_cases off v s with e | e | e | e | ⟨i, j, -, e⟩ | e <;> rw [e]
  · exact setsDoneOnlyByAbort_of_le s _ id id
  · exact writeCtrl_setsDoneOnlyByAbort v s
  · exact writeCmd_setsDoneOnlyByAbort v s
  · exact setsDoneOnlyByAbort_of_le s _ id fun h => (Bool.and_eq_true_iff.mp h).1
  · exact writeWindow_setsDoneOnlyByAbort i j v s
  · exact setsDoneOnlyByAbort_of_le s _ id id

theorem hostAccess_setsDoneOnlyByAbort (a : Access) (s t : State) (h : hostAccess a s = .next t) :
    SetsDoneOnlyByAbort s t := by
  rcases hostAccess_cases a s with e | ⟨-, -, e⟩ | ⟨-, -, e⟩ <;> rw [e] at h
  · cases h
    exact setsDoneOnlyByAbort_of_le s _ id id
  · rw [hostRead_next a.off s t h]
    exact setsDoneOnlyByAbort_of_le s _ id id
  · cases h
    exact hostWrite_setsDoneOnlyByAbort a.off a.data s

/-! ## The step -/

/-- A step is the Engine's, or it sets DONE and RESULT as little as a Host access. -/
theorem step_engine_or_setsDoneOnlyByAbort (s t : State) (h : step s = .next t) :
    engineStep { s with events := s.events.tail } = .next t ∨ SetsDoneOnlyByAbort s t := by
  rcases step_cases s with ⟨-, e⟩ | ⟨a, es, -, e⟩ | ⟨es, -, e⟩ | ⟨k, addr, size, v, es, -, e⟩ <;> rw [e] at h
  · exact .inl h
  · exact .inr (hostAccess_setsDoneOnlyByAbort a { s with events := es } t h)
  · cases h
    exact .inr (setsDoneOnlyByAbort_of_le s _ (by simp) (by simp))
  · cases h
    exact .inr (setsDoneOnlyByAbort_of_le s _ id id)

/-- Settles O58: the Engine completes a command in progress, and a Host access can only abort one. -/
theorem doneIsSetOnlyByACommandsEnd : Obligations.DoneIsSetOnlyByACommandsEnd := by
  intro s t h h0 h1
  rcases step_engine_or_setsDoneOnlyByAbort s t h with he | ⟨-, hdone⟩
  · exact engineStep_done { s with events := s.events.tail } t he h0 h1
  · exact (hdone h1).resolve_left (by simp [h0])

/-- Settles O59: no Host access sets RESULT, and of the commands only RMWIT gives it. -/
theorem onlyRmwitSetsResult : Obligations.OnlyRmwitSetsResult := by
  intro s t h h0 h1
  rcases step_engine_or_setsDoneOnlyByAbort s t h with he | ⟨hres, -⟩
  · exact engineStep_result { s with events := s.events.tail } t he h0 h1
  · exact absurd (hres h1) (by simp [h0])

end Sys2Proof.Machine
end

section
/-! PROOFS. The control and status registers, RST and IRQ (10_state.md R21 to R29; 70_reset_and_hazards.md R101). -/

namespace Sys2Proof.Machine

/-! ## Accesses to the six registers, as steps -/

/-- The step of a read of a register. -/
theorem step_read_register (s : State) (off : Nat) (es : List Event) (hoff : off ∈ registerOffsets)
    (h : s.events = hostRD off :: es) : step s = hostRead off { s with events := es } := by
  have hall : ∀ o ∈ registerOffsets, o % 4 = 0 ∧ o < 0x4000 := by decide
  exact step_read s off es h (hall off hoff).1 (hall off hoff).2

/-- The step of a write of a register. -/
theorem step_write_register (s : State) (off : Nat) (v : Word) (es : List Event) (hoff : off ∈ registerOffsets)
    (h : s.events = hostWR off v :: es) : step s = .next (hostWrite off v { s with events := es }) := by
  have hall : ∀ o ∈ registerOffsets, o % 4 = 0 ∧ o < 0x4000 := by decide
  exact step_write s off v es h (hall off hoff).1 (hall off hoff).2

/-! ## CMD and CTRL -/

theorem writeCmd_idle (c : Word) (s : State) (h : s.busy = false) : writeCmd c s = s.accept c := by
  simp [writeCmd, h]

theorem writeCmd_busy (c : Word) (s : State) (h : s.busy = true) : writeCmd c s = { s with overrun := true } := by
  simp [writeCmd, h]

theorem writeCtrl_softReset (v : Word) (s : State) (h : v.getLsbD 2 = true) : writeCtrl v s = s.softReset := by
  rw [writeCtrl, if_pos h]

/-- Without bit 1, or on an idle block, a CTRL write without bit 2 sets IE alone. -/
theorem writeCtrl_ie (v : Word) (s : State) (h2 : v.getLsbD 2 = false) (h : v.getLsbD 1 = false ∨ s.busy = false) :
    writeCtrl v s = { s with ie := v.getLsbD 0 } := by
  rw [writeCtrl, if_neg (Bool.eq_false_iff.mp h2)]
  dsimp only
  split
  · rename_i h1
    have hidle : s.busy = false := h.resolve_left (by rw [h1]; decide)
    exact if_neg (Bool.eq_false_iff.mp hidle)
  · rfl

theorem writeCtrl_abort (v : Word) (s : State) (h2 : v.getLsbD 2 = false) (h1 : v.getLsbD 1 = true)
    (hb : s.busy = true) : writeCtrl v s = ({ s with ie := v.getLsbD 0 } : State).complete (.err .aborted) := by
  rw [writeCtrl, if_neg (Bool.eq_false_iff.mp h2)]
  dsimp only
  rw [if_pos h1]
  exact if_pos hb

theorem ctrlWord_eq (s : State) : s.ctrlWord = if s.ie then 1 else 0 := by
  unfold State.ctrlWord
  cases s.ie <;> decide

/-- Settles O35, by BUSY. -/
theorem cmdWriteIssuesOrOverruns : Obligations.CmdWriteIssuesOrOverruns := by
  intro s c es hev
  rw [step_write_register s 0x000C c es (by decide) hev, hostWrite_cmd]
  refine ⟨fun hidle => ?_, fun hbusy => ?_⟩
  · rw [writeCmd_idle c { s with events := es } hidle]
    rfl
  · rw [writeCmd_busy c { s with events := es } hbusy]
    rfl

/-- Settles O40, by bits 2 and 1 and BUSY. -/
theorem ctrlWriteOrder : Obligations.CtrlWriteOrder := by
  refine ⟨fun s v es hev => ?_, fun s es hev => ?_⟩
  · rw [step_write_register s 0x0008 v es (by decide) hev, hostWrite_ctrl]
    refine ⟨fun h2 => ?_, fun h2 h => ?_, fun h2 h1 hb => ?_⟩
    · rw [writeCtrl_softReset v _ h2]
      rfl
    · rw [writeCtrl_ie v { s with events := es } h2 h]
      rfl
    · rw [writeCtrl_abort v { s with events := es } h2 h1 hb]
      rfl
  · rw [step_read_register s 0x0008 es (by decide) hev, hostRead_ctrl, ctrlWord_eq]
    rfl

/-! ## CLEAR -/

/-- Settles O43: every bit that CLEAR does not ask for stays. -/
theorem clearWriteClearsStickyBits : Obligations.ClearWriteClearsStickyBits := by
  have hbit (b c : Bool) : (b && !c) = if c then false else b := by
    cases b <;> cases c <;> rfl
  refine ⟨fun s v es hev => ⟨_, step_write_register s 0x0014 v es (by decide) hev, ?_, ?_, ?_, rfl⟩,
    fun s es => step_read_register s 0x0014 es (by decide)⟩
  · exact hbit s.done (v.getLsbD 1)
  · exact hbit s.overrun (v.getLsbD 16)
  · exact hbit s.accerr (v.getLsbD 17)

/-! ## STATUS, CONFIG and the other read-only registers -/

/-- A flag is its only bit. -/
theorem flagBit_getLsbD (b : Bool) (n : Nat) : (flagBit b).getLsbD n = (decide (n = 0) && b) := by
  cases b <;> simp [flagBit, BitVec.getLsbD_one]

theorem ErrCode.bits_eq_zero_iff (c : ErrCode) : c.bits = 0#4 ↔ c = .none := by
  cases c <;> decide

/-- The flags of the STATUS word. -/
theorem State.statusWord_flags (s : State) :
    s.statusWord.getLsbD 0 = s.busy ∧ s.statusWord.getLsbD 1 = s.done ∧ s.statusWord.getLsbD 2 = s.err
      ∧ s.statusWord.getLsbD 3 = s.result ∧ s.statusWord.getLsbD 16 = s.overrun
      ∧ s.statusWord.getLsbD 17 = s.accerr := by
  simp only [State.statusWord, BitVec.getLsbD_append, flagBit_getLsbD]
  simp

/-- ERRCODE and the reserved fields of the STATUS word. -/
theorem State.statusWord_fields (s : State) :
    s.statusWord.extractLsb' 4 4 = 0#4 ∧ s.statusWord.extractLsb' 8 4 = s.errcode.bits
      ∧ s.statusWord.extractLsb' 12 4 = 0#4 ∧ s.statusWord.extractLsb' 18 14 = 0#14 := by
  refine ⟨?_, ?_, ?_, ?_⟩ <;> rw [State.statusWord] <;>
    repeat rw [BitVec.extractLsb'_append_eq_of_le (by decide)]
  case refine_4 => exact BitVec.extractLsb'_eq_self
  all_goals
    rw [BitVec.extractLsb'_append_eq_of_add_le (by decide)]
    exact BitVec.extractLsb'_eq_self

/-- Settles O44, by the fields of the word and the codes of R86. -/
theorem statusWordLayout : Obligations.StatusWordLayout := by
  intro s
  obtain ⟨hbusy, hdone, herr, hresult, hoverrun, haccerr⟩ := s.statusWord_flags
  obtain ⟨hlow, hcode, hmid, hhigh⟩ := s.statusWord_fields
  exact ⟨hbusy, hdone, herr, hresult, hlow, hcode, hmid, hoverrun, haccerr, hhigh,
    by simp [State.err, ErrCode.bits_eq_zero_iff]⟩

/-- The CONFIG word of legal parameters as a number (10_state.md R23). -/
theorem configWord_toNat (p : Params) (hp : p.Legal) : (configWord p).toNat = p.wwords + 2 ^ 8 * p.nreg := by
  obtain ⟨-, hww, -, hreg, -⟩ := hp
  have hwwords : p.wwords % 256 = p.wwords := Nat.mod_eq_of_lt (by omega)
  have hnreg : p.nreg % 32 = p.nreg := Nat.mod_eq_of_lt (by omega)
  have hfields : (configWord p).toNat = p.nreg <<< 8 ||| p.wwords := by
    rw [configWord, BitVec.toNat_append, BitVec.toNat_append]
    simp [hwwords, hnreg]
  rw [hfields, ← Nat.shiftLeft_add_eq_or_of_lt (by omega), Nat.shiftLeft_eq]
  omega

theorem configWord_wwords (p : Params) : (configWord p).extractLsb' 0 8 = BitVec.ofNat 8 p.wwords := by
  rw [configWord, BitVec.extractLsb'_append_eq_of_add_le (by decide), BitVec.extractLsb'_eq_self]

/-- Settles O45, register by register. -/
theorem controlRegisterReads : Obligations.ControlRegisterReads := by
  refine ⟨fun s es => ⟨step_read_register s 0x0000 es (by decide), fun hev hp => ?_,
    step_read_register s 0x000C es (by decide), step_read_register s 0x0010 es (by decide)⟩,
    fun s v off es hoff hev => ?_, by decide⟩
  · exact ⟨configWord s.params, configWord_wwords s.params, configWord_toNat s.params hp,
      step_read_register s 0x0004 es (by decide) hev⟩
  · simp only [List.mem_cons, List.not_mem_nil, or_false] at hoff
    rcases hoff with rfl | rfl | rfl <;> exact step_write_register s _ v es (by decide) hev

/-! ## RST and IRQ -/

theorem State.powerOnReset_word (s : State) (i j : Nat) : s.powerOnReset.word i j = none := by
  rw [State.word, State.powerOnReset_x]
  rcases Nat.lt_or_ge i s.params.nreg with hi | hi
  · simp only [List.getD_eq_getElem?_getD, List.getElem?_replicate, if_pos hi, Option.getD_some]
    split <;> rfl
  · simp [hi]

theorem State.powerOnReset_statusWord (s : State) : s.powerOnReset.statusWord = 0 := by
  simp only [State.statusWord, State.err, State.powerOnReset_busy, State.powerOnReset_done,
    State.powerOnReset_result, State.powerOnReset_errcode, State.powerOnReset_overrun, State.powerOnReset_accerr]
  decide

/-- Settles O42: the state after RST is written out in `State.resetOf`. -/
theorem powerOnResetState : Obligations.PowerOnResetState := by
  intro s es hev
  exact ⟨_, step_rst s es hev, rfl, rfl, rfl, rfl, rfl, rfl, rfl, rfl, rfl,
    State.powerOnReset_statusWord _, rfl, rfl,
    State.resetOf_regsWf s.params, State.powerOnReset_word _⟩

/-- Settles O46: IRQ reads IE and DONE, and each operation says what it leaves of them. -/
theorem irqFollowsEnableAndDone : Obligations.IrqFollowsEnableAndDone := by
  refine ⟨fun s => Bool.and_eq_true_iff, fun i s t h => ?_, fun s c => ⟨?_, rfl, rfl⟩, fun s v h => ?_⟩
  · obtain ⟨-, hdone, -, -, -, hie, -⟩ := exec_completes i s t h
    simp [State.irq, hdone, hie]
  · simp [State.irq]
  · simp [State.irq, h]

end Sys2Proof.Machine
end

section
/-! PROOFS. Writes of the operand window, accesses the aperture does not support, and reads repeated at once
(20_memory.md R35, R37, R41). -/

namespace Sys2Proof.Machine

/-! ## A write of a window word -/

theorem writeWindow_idle (i j : Nat) (v : Word) (s : State) (h : s.busy = false) :
    writeWindow i j v s = s.setWord i j v := by
  simp [writeWindow, h]

theorem writeWindow_busy (i j : Nat) (v : Word) (s : State) (h : s.busy = true) :
    writeWindow i j v s = { s with overrun := true } := by
  simp [writeWindow, h]

/-- The step of a Host write at a window offset. -/
theorem step_write_window (s : State) (i j : Nat) (v : Word) (es : List Event) (hp : s.params.Legal)
    (hi : i < s.params.nreg) (hj : j < s.params.wwords) (h : s.events = hostWR (windowOffset i j) v :: es) :
    step s = .next (writeWindow i j v { s with events := es }).noAnswer := by
  rw [step_write s _ v es h (windowOffset_aligned i j) (windowOffset_lt s.params i j hp hi hj),
    hostWrite_window { s with events := es } i j v hp hi hj]

/-- Settles O37, by BUSY. -/
theorem windowWriteStoresOrOverruns : Obligations.WindowWriteStoresOrOverruns := by
  intro s i j v es hp hwf hi hj hev
  rw [step_write_window s i j v es hp hi hj hev]
  refine ⟨fun hidle => ?_, fun hbusy => ?_⟩
  · rw [writeWindow_idle i j v { s with events := es } hidle]
    exact ⟨_, rfl, State.setWord_word_same { s with events := es } hwf i j v hi hj,
      State.setWord_word_other { s with events := es } i j v, rfl⟩
  · rw [writeWindow_busy i j v { s with events := es } hbusy]
    rfl

/-! ## Unsupported accesses -/

theorem Access.supported_eq_false (a : Access) :
    a.supported = false ↔ a.size ≠ 4 ∨ a.off % 4 ≠ 0 ∨ 0x4000 ≤ a.off := by
  simp [Access.supported, imp_iff_not_or, or_assoc]

/-- Settles O38: an unsupported access is an access error, which answers 0 to a read. -/
theorem unsupportedAccessSetsAccerr : Obligations.UnsupportedAccessSetsAccerr := by
  intro s a es hev hbad
  rw [step_access s a es hev, hostAccess_unsupported a _ (a.supported_eq_false.mpr hbad)]
  cases hk : a.kind <;> rfl

/-! ## Reads of mapped offsets -/

/-- The answer to a read of a register depends on neither the last answer nor the events. -/
theorem hostRead_register_congr (off : Nat) (s : State) (h : off ∈ registerOffsets) :
    ∃ w, ∀ r es, hostRead off { s with events := es, reply := r } = .next { s with events := es, reply := some w } := by
  simp only [List.mem_cons, List.not_mem_nil, or_false] at h
  rcases h with rfl | rfl | rfl | rfl | rfl | rfl
  · exact ⟨idWord, fun _ _ => rfl⟩
  · exact ⟨configWord s.params, fun _ _ => rfl⟩
  · exact ⟨s.ctrlWord, fun _ _ => rfl⟩
  · exact ⟨s.L, fun _ _ => rfl⟩
  · exact ⟨s.statusWord, fun _ _ => rfl⟩
  · exact ⟨0, fun _ _ => rfl⟩

/-- Neither does the answer to a read of a mapped offset. -/
theorem step_read_mapped (s : State) (off : Nat) (hp : s.params.Legal)
    (hoff : off ∈ registerOffsets
      ∨ ∃ i j, i < s.params.nreg ∧ j < s.params.wwords ∧ off = windowOffset i j ∧ s.word i j ≠ none) :
    ∃ w, ∀ r es, step { s with events := hostRD off :: es, reply := r }
      = .next { s with events := es, reply := some w } := by
  rcases hoff with hreg | ⟨i, j, hi, hj, rfl, hw⟩
  · obtain ⟨w, hread⟩ := hostRead_register_congr off s hreg
    exact ⟨w, fun r es => (step_read_register { s with events := hostRD off :: es, reply := r } off es hreg rfl).trans
      (hread r es)⟩
  · obtain ⟨w, hw⟩ := Option.ne_none_iff_exists'.mp hw
    refine ⟨w, fun r es => ?_⟩
    rw [step_read_window { s with events := hostRD (windowOffset i j) :: es, reply := r } i j es hp hi hj rfl]
    exact readWindow_written { s with events := es, reply := r } i j w hw

/-- Settles O47: the second read finds a state that differs from the first one's in the answer and the events only. -/
theorem readsAreIdempotent : Obligations.ReadsAreIdempotent := by
  intro s off es hp hoff hev
  obtain ⟨w, hread⟩ := step_read_mapped s off hp hoff
  have hs : s = { s with events := hostRD off :: hostRD off :: es, reply := s.reply } := by rw [← hev]
  exact ⟨_, _, w, (congrArg step hs).trans (hread _ _), rfl, hread _ _, rfl⟩

end Sys2Proof.Machine
end

section
/-! PROOFS. An abort and a completion in either order (20_memory.md R42; 44_control.md R83). -/

namespace Sys2Proof.Machine

/-- An abort of an idle block only clears IE. -/
theorem step_abort_idle (s : State) (es : List Event) (hev : s.events = hostWR 0x0008 0x2 :: es)
    (hidle : s.busy = false) : step s = .next { s with events := es, ie := false, reply := none } := by
  rw [step_write_register s 0x0008 0x2 es (by decide) hev, hostWrite_ctrl,
    writeCtrl_ie 0x2 { s with events := es } (by decide) (.inr hidle)]
  rfl

/-- An abort of a busy block completes the command with ABORTED and clears IE. -/
theorem step_abort_busy (s : State) (es : List Event) (hev : s.events = hostWR 0x0008 0x2 :: es)
    (hbusy : s.busy = true) :
    step s = .next (({ s with events := es, ie := false } : State).complete (.err .aborted)).noAnswer := by
  rw [step_write_register s 0x0008 0x2 es (by decide) hev, hostWrite_ctrl,
    writeCtrl_abort 0x2 { s with events := es } (by decide) (by decide) hbusy]
  rfl

theorem step_engine_idle (s : State) (es : List Event) (hev : s.events = .engine :: es) (hidle : s.busy = false) :
    step s = .next { s with events := es } :=
  (step_engine s es hev).trans (engineStep_idle _ hidle)

/-- The Engine completes the latched command whatever the last answer and the pending events are. -/
theorem engineStep_exec (i : Instr) (s u : State) (r : Option Word) (es : List Event) (hbusy : s.busy = true)
    (hd : decode s.L = .ok i) (hu : exec i s = .next u) :
    engineStep { s with reply := r, events := es } = .next { u with reply := r, events := es } :=
  (engineStep_ok { s with reply := r, events := es } i hbusy hd).trans (exec_reply_events i s u r es hu)

/-- The Engine's event, and then an abort of the block that it left idle. -/
theorem runsTo_engine_then_abort (s u : State) (es : List Event)
    (hev : s.events = .engine :: hostWR 0x0008 0x2 :: es)
    (hu : engineStep { s with events := hostWR 0x0008 0x2 :: es } = .next u)
    (hidle : u.busy = false) (huev : u.events = hostWR 0x0008 0x2 :: es) :
    RunsTo 2 s { u with events := es, ie := false, reply := none } :=
  ⟨u, (step_engine s _ hev).trans hu, _, step_abort_idle u es huev hidle, rfl⟩

/-- Settles O49: whichever event comes second finds the block idle. -/
theorem abortAndCompletionRace : Obligations.AbortAndCompletionRace := by
  intro s es hbusy
  refine ⟨fun hev => ?_, fun i u hev hd hu => ?_, fun e hev hd => ?_⟩
  · exact ⟨_, ⟨_, step_abort_busy s _ hev hbusy, _, step_engine_idle _ es rfl rfl, rfl⟩, rfl, rfl, rfl, rfl, rfl⟩
  · obtain ⟨hidle, hdone, -⟩ := exec_completes i _ u hu
    have hcomplete := engineStep_exec i { s with events := [] } u s.reply (hostWR 0x0008 0x2 :: es) hbusy hd hu
    exact ⟨_, runsTo_engine_then_abort s _ es hev hcomplete hidle rfl,
      rfl, rfl, rfl, hidle, hdone, rfl⟩
  · exact ⟨_, runsTo_engine_then_abort s _ es hev (engineStep_illegal _ e hbusy hd) rfl rfl,
      rfl, rfl, rfl, rfl, rfl, rfl⟩

end Sys2Proof.Machine
end

section
/-! PROOFS. LOAD: the words of a value written one by one (20_memory.md R37, 30_encoding.md R59). -/

namespace Sys2Proof.Machine

/-! ## The words of a number -/

/-- Word `j` of a number is its bits 32j+31 : 32j. -/
theorem natToWords_eq_map_range (n v : Nat) :
    natToWords n v = (List.range n).map fun j => BitVec.ofNat 32 (v / 2 ^ (32 * j)) := by
  induction n generalizing v with
  | zero => rfl
  | succ n ih =>
    have hshift (j : Nat) : v / 2 ^ (32 * (j + 1)) = v / 2 ^ 32 / 2 ^ (32 * j) := by
      rw [Nat.div_div_eq_div_mul, ← pow_add, Nat.mul_succ, Nat.add_comm]
    rw [natToWords, ih, List.range_succ_eq_map, List.map_cons, List.map_map]
    simp [Function.comp_def, hshift]

/-- A register whose words are those of `v` is written and reads as `v mod 2^W`. -/
theorem State.operand_of_words (s : State) (k : RegIx) (v : Nat)
    (h : ∀ j, j < s.params.wwords → s.word k.val j = some (BitVec.ofNat 32 (v / 2 ^ (32 * j)))) :
    s.written k.val = true ∧ ∀ f, s.operand f k = v % 2 ^ s.params.width := by
  refine ⟨List.all_eq_true.mpr fun j hj => by simp [h j (List.mem_range.mp hj)], fun f => ?_⟩
  have hwords : (List.range s.params.wwords).map (s.readWord f k.val) = natToWords s.params.wwords v := by
    rw [natToWords_eq_map_range]
    refine List.map_congr_left fun j hj => ?_
    simp [State.readWord, h j (List.mem_range.mp hj)]
  rw [State.operand, hwords, wordsToNat_natToWords, Params.width]

/-! ## The state after the first writes of LOAD -/

/-- The state after the bus writes of the low `n` words of `v` to register `k`. -/
def State.loadWords (s : State) (k v : Nat) : Nat → State
  | 0 => s
  | n + 1 => (s.loadWords k v n).setWord k n (BitVec.ofNat 32 (v / 2 ^ (32 * n)))

theorem State.loadWords_eq (s : State) (k v n : Nat) :
    s.loadWords k v n = { s with x := (s.loadWords k v n).x } := by
  induction n with
  | zero => rfl
  | succ n ih =>
    rw [State.loadWords, ih]
    rfl

@[simp] theorem State.loadWords_params (s : State) (k v n : Nat) : (s.loadWords k v n).params = s.params := by
  rw [s.loadWords_eq]

@[simp] theorem State.loadWords_busy (s : State) (k v n : Nat) : (s.loadWords k v n).busy = s.busy := by
  rw [s.loadWords_eq]

theorem State.loadWords_regsWf (s : State) (k v n : Nat) (h : s.RegsWf) : (s.loadWords k v n).RegsWf := by
  induction n with
  | zero => exact h
  | succ n ih => exact State.setWord_regsWf _ k n _ ih

theorem State.loadWords_word_other (s : State) (k v n i j : Nat) (h : i ≠ k) :
    (s.loadWords k v n).word i j = s.word i j := by
  induction n with
  | zero => rfl
  | succ n ih => exact (State.setWord_word_other _ k n _ i j fun hij => h hij.1).trans ih

theorem State.loadWords_word_same (s : State) (k v n j : Nat) (hwf : s.RegsWf) (hk : k < s.params.nreg)
    (hn : n ≤ s.params.wwords) (hj : j < n) :
    (s.loadWords k v n).word k j = some (BitVec.ofNat 32 (v / 2 ^ (32 * j))) := by
  induction n with
  | zero => omega
  | succ n ih =>
    rw [State.loadWords]
    rcases Nat.lt_succ_iff_lt_or_eq.mp hj with hlt | rfl
    · rw [State.setWord_word_other _ _ _ _ _ _ fun hij => hlt.ne hij.2]
      exact ih (by omega) hlt
    · exact State.setWord_word_same _ (s.loadWords_regsWf k v j hwf) _ _ _ (by simpa using hk)
        (by rw [State.loadWords_params]; omega)

/-! ## The run of LOAD -/

/-- The first `n` writes of LOAD, one a step. Before the first write the last answer is still there. -/
theorem runsTo_loadWords (s : State) (k v n : Nat) (es : List Event) (hp : s.params.Legal) (hidle : s.busy = false)
    (hk : k < s.params.nreg) (hn : n ≤ s.params.wwords)
    (hev : s.events = ((List.range n).map fun j =>
      hostWR (windowOffset k j) (BitVec.ofNat 32 (v / 2 ^ (32 * j)))) ++ es) :
    ∃ r, (0 < n → r = none) ∧ RunsTo n s { s.loadWords k v n with events := es, reply := r } := by
  induction n generalizing es with
  | zero => exact ⟨s.reply, fun h => absurd h (by decide), by rw [← hev.trans (List.nil_append es)]; rfl⟩
  | succ n ih =>
    rw [List.range_succ, List.map_append, List.append_assoc] at hev
    obtain ⟨r, -, hrun⟩ := ih _ (by omega) hev
    refine ⟨none, fun _ => rfl, runsTo_append n 1 _ _ _ hrun ⟨_, ?_, rfl⟩⟩
    rw [step_write_window _ k n _ es (by simpa using hp) (by simpa using hk) (by simpa using hn) rfl,
      writeWindow_idle _ _ _ _ (by simpa using hidle)]
    rfl

/-- Settles O50: each write stores its word, and the words of a value below 2^W make the value. -/
theorem loadWritesTheValue : Obligations.LoadWritesTheValue := by
  intro s k v es hp hwf hidle hk hv hev
  obtain ⟨r, hr, hrun⟩ := runsTo_loadWords s k.val v s.params.wwords es hp hidle hk le_rfl hev
  obtain ⟨hwwords, -⟩ := hp
  obtain rfl : r = none := hr hwwords
  obtain ⟨hwritten, hvalue⟩ := State.operand_of_words
    { s.loadWords k.val v s.params.wwords with events := es, reply := none } k v fun j hj =>
      s.loadWords_word_same k.val v s.params.wwords j hwf hk le_rfl (by simpa using hj)
  refine ⟨_, hrun, hwritten, fun f => ?_, fun i j hi => ?_, ?_⟩
  · rw [hvalue f]
    simpa using Nat.mod_eq_of_lt hv
  · exact s.loadWords_word_other k.val v _ i j (hi k (by simp))
  · rw [s.loadWords_eq]

end Sys2Proof.Machine
end

section
/-! PROOFS. EXEC: the decoder undoes the encoder, and the run of a command with polls of STATUS (30_encoding.md R54,
R59; 20_memory.md R42). -/

namespace Sys2Proof

/-- The fixed fields of every command's word. -/
theorem encode_fields (i : Instr) : Laws.EncodedFields.Statement i := by
  cases i with
  | nop => exact Laws.EncodedFields.nop
  | montmul rd ra rb rc => exact Laws.EncodedFields.montmul rd ra rb rc
  | montr2 rd rc => exact Laws.EncodedFields.montr2 rd rc
  | tomont rd ra rc => exact Laws.EncodedFields.tomont rd ra rc
  | frommont rd ra rc => exact Laws.EncodedFields.frommont rd ra rc
  | modred rd ra rc => exact Laws.EncodedFields.modred rd ra rc
  | modmul rd ra rb rc => exact Laws.EncodedFields.modmul rd ra rb rc
  | modexp rd ra rb rc => exact Laws.EncodedFields.modexp rd ra rb rc
  | gcd rd ra rb => exact Laws.EncodedFields.gcd rd ra rb
  | xgcd rd re ra rb => exact Laws.EncodedFields.xgcd rd re ra rb
  | modinv rd ra rc => exact Laws.EncodedFields.modinv rd ra rc
  | rmwit ra rc => exact Laws.EncodedFields.rmwit ra rc

theorem Instr.opcode_lt (i : Instr) : i.opcode.toNat < 0x0C := by
  cases i <;> simp [Instr.opcode]

/-- The word of a legal command meets none of the four conditions of R54, and its fields name the command. -/
theorem decode_encode (i : Instr) (h : i.wellFormed = true) : decode (encode i) = .ok i := by
  obtain ⟨hop, hrsv, hunused⟩ := encode_fields i
  rw [decode, hop, if_neg (Nat.not_le.mpr i.opcode_lt), if_neg (not_not_intro hrsv),
    if_neg (Bool.eq_false_iff.mp hunused)]
  cases i with
  | xgcd rd re ra rb =>
    have hne : rd ≠ re := by simpa [Instr.wellFormed] using h
    simp [Instr.opcode, encode, hne]
  | _ => simp [Instr.opcode, encode]

end Sys2Proof

namespace Sys2Proof.Machine

/-- The step of a poll of STATUS. -/
theorem step_poll (s : State) (es : List Event) (h : s.events = hostRD 0x0010 :: es) :
    step s = .next { s with events := es, reply := some s.statusWord } :=
  step_read_register s 0x0010 es (by decide) h

/-- Polls of STATUS change the answer alone. -/
theorem runsTo_polls (n : Nat) (s : State) (es : List Event)
    (h : s.events = List.replicate n (hostRD 0x0010) ++ es) :
    ∃ r, RunsTo n s { s with events := es, reply := r } := by
  induction n generalizing s with
  | zero => exact ⟨s.reply, by rw [← h.trans (List.nil_append es)]; rfl⟩
  | succ n ih =>
    obtain ⟨r, hrun⟩ := ih { s with
      events := List.replicate n (hostRD 0x0010) ++ es, reply := some s.statusWord } rfl
    exact ⟨r, _, step_poll s _ h, hrun⟩

/-- Settles O51: the command is accepted, the polls change the answer alone, and the last one finds it completed. -/
theorem execSequenceReturnsStatus : Obligations.ExecSequenceReturnsStatus := by
  intro s u i n es hidle hlegal hev hu
  obtain ⟨hubusy, -, -, -, -, -, -, -, -, -, huev⟩ := exec_completes i _ u hu
  obtain ⟨hstatus, -⟩ := u.statusWord_flags
  have hev : s.events = hostWR 0x000C (encode i)
      :: (List.replicate n (hostRD 0x0010) ++ .engine :: hostRD 0x0010 :: es) := by
    simpa [hostEXEC, hostISSUE, hostWAIT] using hev
  obtain ⟨hissue, -⟩ := cmdWriteIssuesOrOverruns s (encode i) _ hev
  obtain ⟨r, hpolls⟩ := runsTo_polls n { s.accept (encode i) with
    events := List.replicate n (hostRD 0x0010) ++ .engine :: hostRD 0x0010 :: es, reply := none } _ rfl
  have hcomplete : step { s.accept (encode i) with events := .engine :: hostRD 0x0010 :: es, reply := r }
      = .next { u with events := hostRD 0x0010 :: es, reply := r } :=
    (step_engine _ _ rfl).trans <| engineStep_exec i { s.accept (encode i) with events := es } u r
      (hostRD 0x0010 :: es) rfl (decode_encode i hlegal) hu
  refine ⟨_, ⟨_, hissue hidle, runsTo_append n 2 _ _ _ hpolls ⟨_, hcomplete, _, step_poll _ es rfl, rfl⟩⟩, ?_, ?_⟩
  · obtain rfl : u.events = es := huev
    rfl
  · exact hstatus.trans hubusy

end Sys2Proof.Machine
end

section
/-! PROOFS. The decoder inverted: what a word that decodes is the encoding of, and when a word is illegal
(30_encoding.md R50, R51, R54). -/

namespace Sys2Proof

/-! ## A word that decodes is the encoding of its command -/

/-- The register index in a used field; an unused field counts as 0, whatever it holds. -/
def usedIx (used : Bool) (f : BitVec 4) : RegIx := if used then ixOf f else 0

theorem usedIx_eq (used : Bool) (f : BitVec 4) (h : used = false → f = 0) : usedIx used f = ixOf f := by
  cases used with
  | false =>
    rw [h rfl]
    rfl
  | true => rfl

/-- A word that meets neither condition 2 nor condition 3 of R54 is the packing of its used fields, with 0 elsewhere. -/
theorem word_eq_pack_used (c : Word) (hrsv : rsvOf c = 0) (hunused : unusedFieldSet c = false) :
    c = packCommand (opOf c)
      (usedIx (fieldUse (opOf c).toNat).rd (rdOf c)) (usedIx (fieldUse (opOf c).toNat).re (reOf c))
      (usedIx (fieldUse (opOf c).toNat).ra (raOf c)) (usedIx (fieldUse (opOf c).toNat).rb (rbOf c))
      (usedIx (fieldUse (opOf c).toNat).rc (rcOf c)) := by
  obtain ⟨⟨⟨⟨hrd, hre⟩, hra⟩, hrb⟩, hrc⟩ := by simpa [unusedFieldSet] using hunused
  rw [usedIx_eq _ _ hrd, usedIx_eq _ _ hre, usedIx_eq _ _ hra, usedIx_eq _ _ hrb, usedIx_eq _ _ hrc]
  exact word_eq_pack c hrsv

/-- In each branch of the decoder the packing of the used fields is the encoding of the command. -/
theorem encode_of_decode_ok (c : Word) (i : Instr) (h : decode c = .ok i) : encode i = c ∧ i.wellFormed = true := by
  have hop := opOf_of_decode_ok c i h
  unfold decode at h
  split at h
  · cases h
  split at h
  · cases h
  split at h
  · cases h
  rename_i _ hrsv hunused
  have hpack := word_eq_pack_used c (not_not.mp hrsv) (Bool.eq_false_iff.mpr hunused)
  rw [hop] at hpack
  dsimp only at h
  split at h
  case h_10 => -- XGCD, which tests its two destinations
    split at h
    · cases h
    · rename_i hne
      cases h
      exact ⟨hpack.symm, bne_iff_ne.mpr hne⟩
  case h_13 => cases h
  all_goals
    cases h
    exact ⟨hpack.symm, rfl⟩

theorem decodeTableWord_of_decode_ok (c : Word) (i : Instr) (h : decode c = .ok i) :
    decodeTableWord 32 c.toNat = some i := by
  have htable : tableWord 32 c.toNat = c := by
    rw [tableWord, Nat.mod_eq_of_lt c.isLt, BitVec.ofNat_toNat, BitVec.setWidth_eq]
  simp [decodeTableWord, htable, h]

/-! ## When a word is illegal (30_encoding.md R54) -/

theorem unusedFieldSet_iff (c : Word) :
    unusedFieldSet c = true ↔
      ((fieldUse (opOf c).toNat).rd = false ∧ rdOf c ≠ 0) ∨ ((fieldUse (opOf c).toNat).re = false ∧ reOf c ≠ 0)
      ∨ ((fieldUse (opOf c).toNat).ra = false ∧ raOf c ≠ 0) ∨ ((fieldUse (opOf c).toNat).rb = false ∧ rbOf c ≠ 0)
      ∨ ((fieldUse (opOf c).toNat).rc = false ∧ rcOf c ≠ 0) := by
  simp [unusedFieldSet, or_assoc]

/-- The decoder rejects a word under R54's four conditions and no other. -/
theorem decode_error_iff (c : Word) :
    (∃ e, decode c = .error e) ↔
      0x0C ≤ (opOf c).toNat ∨ rsvOf c ≠ 0 ∨ unusedFieldSet c = true ∨ (opOf c = 0x09#8 ∧ rdOf c = reOf c) := by
  unfold decode
  split
  · rename_i hop
    exact iff_of_true ⟨_, rfl⟩ (.inl hop)
  split
  · rename_i hrsv
    exact iff_of_true ⟨_, rfl⟩ (.inr (.inl hrsv))
  split
  · rename_i hunused
    exact iff_of_true ⟨_, rfl⟩ (.inr (.inr (.inl hunused)))
  rename_i hop hrsv hunused
  simp only [hop, hrsv, hunused, false_or, Bool.false_eq_true, ← BitVec.toNat_inj (x := opOf c)]
  split
  case h_10 h => -- XGCD, which tests its two destinations
    split
    · rename_i hd
      simp [h, BitVec.toFin_inj.mp hd]
    · rename_i hd
      simp [h, mt BitVec.toFin_inj.mpr hd]
  case h_13 => -- the opcode is one of the twelve
    simp only [imp_false] at *
    omega
  all_goals
    rename_i h
    simp [h]

/-- A word that the decoder does not reject stands for a command. -/
theorem decode_ok_iff_not_error (c : Word) : (∃ i, decode c = .ok i) ↔ ¬∃ e, decode c = .error e := by
  cases decode c <;> simp

end Sys2Proof
end

section
/-! PROOFS. The words that select a row of the opcode map (30_encoding.md R53). -/

namespace Sys2Proof

/-- What a row's mask and match hold, field by field: OP and RSV are compared, a register field is compared with 0 where
R51 marks it unused. -/
theorem opcodeMap_fields : ∀ r ∈ opcodeMap,
    r.value = packCommand r.op 0 0 0 0 0 ∧ opOf r.mask = BitVec.allOnes 8 ∧ rsvOf r.mask = BitVec.allOnes 4
      ∧ rdOf r.mask = (if (fieldUse r.op.toNat).rd then 0 else BitVec.allOnes 4)
      ∧ reOf r.mask = (if (fieldUse r.op.toNat).re then 0 else BitVec.allOnes 4)
      ∧ raOf r.mask = (if (fieldUse r.op.toNat).ra then 0 else BitVec.allOnes 4)
      ∧ rbOf r.mask = (if (fieldUse r.op.toNat).rb then 0 else BitVec.allOnes 4)
      ∧ rcOf r.mask = (if (fieldUse r.op.toNat).rc then 0 else BitVec.allOnes 4) := by
  decide

theorem opcodeMap_op_inj : ∀ r ∈ opcodeMap, ∀ r' ∈ opcodeMap, r.op = r'.op → r = r' := by decide

/-- The map has a row for every opcode below 0x0C and no other. -/
theorem exists_row_iff (op : BitVec 8) : (∃ r ∈ opcodeMap, op = r.op) ↔ op.toNat < 0x0C := by
  constructor
  · have hlt : ∀ r ∈ opcodeMap, r.op.toNat < 0x0C := by decide
    rintro ⟨r, hr, rfl⟩
    exact hlt r hr
  · have hrow : ∀ k < 0x0C, ∃ r ∈ opcodeMap, k = r.op.toNat := by decide
    intro hop
    obtain ⟨r, hr, h⟩ := hrow op.toNat hop
    exact ⟨r, hr, BitVec.eq_of_toNat_eq h⟩

/-- A masked word is the packing of an opcode alone exactly when each masked field is that field of the packing. -/
theorem and_eq_pack_iff (c m : Word) (op : BitVec 8) :
    c &&& m = packCommand op 0 0 0 0 0 ↔ opOf c &&& opOf m = op ∧ rsvOf c &&& rsvOf m = 0 ∧ rdOf c &&& rdOf m = 0
      ∧ reOf c &&& reOf m = 0 ∧ raOf c &&& raOf m = 0 ∧ rbOf c &&& rbOf m = 0 ∧ rcOf c &&& rcOf m = 0 := by
  simp only [opOf, rdOf, reOf, raOf, rbOf, rcOf, rsvOf, ← BitVec.extractLsb'_and]
  constructor
  · intro h
    rw [h]
    exact ⟨opOf_pack .., rsvOf_pack .., rdOf_pack .., reOf_pack .., raOf_pack .., rbOf_pack .., rcOf_pack ..⟩
  · rintro ⟨hop, hrsv, hrd, hre, hra, hrb, hrc⟩
    exact word_ext_fields _ _ (hop.trans (opOf_pack ..).symm) (hrd.trans (rdOf_pack ..).symm)
      (hre.trans (reOf_pack ..).symm) (hra.trans (raOf_pack ..).symm) (hrb.trans (rbOf_pack ..).symm)
      (hrc.trans (rcOf_pack ..).symm) (hrsv.trans (rsvOf_pack ..).symm)

/-- A register field under its part of a mask: it is compared with 0 unless it is used. -/
theorem field_and_mask (used : Bool) (f : BitVec 4) :
    f &&& (if used then 0 else BitVec.allOnes 4) = 0 ↔ ¬(used = false ∧ f ≠ 0) := by
  cases used
  · simp only [Bool.false_eq_true, if_false, BitVec.and_allOnes, true_and, ne_eq, not_not]
  · simp

/-- The words that select a row: those of its opcode that meet neither condition 2 nor condition 3 of R54. -/
theorem selects_iff (r : OpcodeRow) (hr : r ∈ opcodeMap) (c : Word) :
    r.selects c = true ↔ opOf c = r.op ∧ rsvOf c = 0 ∧ ¬unusedFieldSet c = true := by
  obtain ⟨hvalue, hop, hrsv, hrd, hre, hra, hrb, hrc⟩ := opcodeMap_fields r hr
  rw [OpcodeRow.selects, beq_iff_eq, hvalue, and_eq_pack_iff, hop, hrsv, hrd, hre, hra, hrb, hrc]
  simp only [field_and_mask, BitVec.and_allOnes]
  refine and_congr_right fun h => ?_
  rw [← h, unusedFieldSet_iff]
  simp only [not_or]

end Sys2Proof
end

section
/-! PROOFS. The obligations O1 to O5. -/

namespace Sys2Proof.Machine

/-- Settles O1: the decoder undoes the encoder, and reading the table's bits is decoding. -/
theorem decodeEncodeReturnsTheCommand : Obligations.DecodeEncodeReturnsTheCommand := fun i hlegal =>
  have h := decode_encode i hlegal
  ⟨h, decodeTableWord_of_decode_ok _ i h⟩

/-- Settles O2: a legal word's unused fields are 0, so it is the packing of its command's fields. -/
theorem encodeDecodeReturnsTheWord : Obligations.EncodeDecodeReturnsTheWord :=
  encode_of_decode_ok

/-- Settles O3: a row is selected by the words of its opcode that meet neither condition 2 nor condition 3 of R54. -/
theorem decoderAgreesWithOpcodeMap : Obligations.DecoderAgreesWithOpcodeMap := by
  have hsel : ∀ r ∈ opcodeMap, ∀ c : Word, r.selects c = true → opOf c = r.op := fun r hr c h =>
    ((selects_iff r hr c).mp h).1
  refine ⟨fun c => ?_, hsel, fun r hr r' hr' c h h' => ?_, opOf_of_decode_ok, by decide⟩
  · have hrow : (∃ r ∈ opcodeMap, r.selects c = true)
        ↔ (opOf c).toNat < 0x0C ∧ rsvOf c = 0 ∧ ¬unusedFieldSet c = true := by
      rw [← exists_row_iff]
      constructor
      · rintro ⟨r, hr, h⟩
        obtain ⟨hop, hfields⟩ := (selects_iff r hr c).mp h
        exact ⟨⟨r, hr, hop⟩, hfields⟩
      · rintro ⟨⟨r, hr, hop⟩, hfields⟩
        exact ⟨r, hr, (selects_iff r hr c).mpr ⟨hop, hfields⟩⟩
    rw [decode_ok_iff_not_error, decode_error_iff, hrow]
    simp only [not_or, not_and, not_le, ne_eq, not_not, and_assoc]
  · exact opcodeMap_op_inj r hr r' hr' ((hsel r hr c h).symm.trans (hsel r' hr' c h'))

/-- Settles O4: the decoder's four tests are R54's conditions, and the Engine completes a latched illegal word. -/
theorem illegalWordsCompleteWithIllegal : Obligations.IllegalWordsCompleteWithIllegal := by
  refine ⟨fun c => ?_, fun s c es hidle hev herr => ?_⟩
  · rw [decode_error_iff, unusedFieldSet_iff]
    simp only [or_assoc]
  · obtain ⟨e, he⟩ := herr
    obtain ⟨hissue, -⟩ := cmdWriteIssuesOrOverruns s c _ hev
    exact ⟨_, _, hissue hidle, rfl, rfl, (step_engine _ es rfl).trans (engineStep_illegal _ e rfl he),
      rfl, rfl, rfl, rfl, rfl, rfl, rfl⟩

/-- Settles O5, by running the decoder. -/
theorem sampleWordsDecode : Obligations.SampleWordsDecode := by
  unfold Obligations.SampleWordsDecode
  decide

end Sys2Proof.Machine
end

section
/-! PROOFS. BADREG is the error of the common frame, and of no command's body (30_encoding.md R55). -/

namespace Sys2Proof.Machine

/-- No command's body reports BADREG; it ends with its own error or none. -/
theorem bodyResult_ne_badreg (i : Instr) (s : State) : bodyResult i s ≠ .err .badreg := by
  cases i <;>
    simp only [bodyResult, montmulResult, montr2Result, tomontResult, frommontResult, modredResult, modmulResult,
      modexpResult, gcdResult, xgcdResult, modinvResult, rmwitResult]
  all_goals
    repeat' split
    all_goals simp

theorem State.complete_errcode_eq (r : CmdResult) (s : State) (c : ErrCode) (hc : c ≠ .none)
    (h : (s.complete r).errcode = c) : r = .err c := by
  cases r with
  | ok ws b => exact absurd h.symm hc
  | err c' => rw [← h, State.complete_err_errcode]

/-- Settles O30: BADREG comes from the common frame alone, where a used register is at or above NREG. -/
theorem badRegisterIsReported : Obligations.BadRegisterIsReported := by
  refine ⟨fun s i hlegal hreg => ?_, rfl, fun s t i hnreg ht hbad => ?_⟩
  · exact ⟨_, (exec_eq_command i s hlegal).trans (s.command_badreg _ _ _ hreg), fails_complete s .badreg⟩
  · rcases exec_cases i s with ⟨c, hc, e⟩ | ⟨-, e⟩ | ⟨-, -, e⟩ <;> rw [e] at ht <;> cases ht
    · obtain rfl : c = .badreg := hbad
      obtain ⟨-, hc⟩ | ⟨-, ⟨k, -, hk⟩, -⟩ := hc
      · cases hc
      · exact absurd k.isLt (by omega)
    · exact bodyResult_ne_badreg i s (State.complete_errcode_eq _ _ .badreg (by decide) hbad)

end Sys2Proof.Machine
end

section
/-! PROOFS. The assembler reads the lines it prints (30_encoding.md R57, R58). -/

namespace Sys2Proof.Machine

/-! ## Mnemonics -/

/-- What the parser needs of a mnemonic: it has characters, all of them in capitals and none a blank or `;`. -/
abbrev IsMnemonic (m : List Char) : Prop := m ≠ [] ∧ ∀ c ∈ m, isBlank c = false ∧ c ≠ ';' ∧ c.toUpper = c

theorem isMnemonic_mnemonicOf (i : Instr) : IsMnemonic (mnemonicOf i) := by
  cases i <;> simp [IsMnemonic, mnemonicOf, isBlank]

theorem assemble_mnemonicOf (i : Instr) : assemble (mnemonicOf i) i.usedRegs = some i := by
  cases i <;> rfl

/-! ## The operands of a line -/

theorem parse_namesText (k : RegIx) (ks : List RegIx) :
    ((splitCommas (namesText k ks)).map trimBlanks).mapM parseReg = some (k :: ks) := by
  have hsplit : (splitCommas (namesText k ks)).map trimBlanks = (k :: ks).map regName := by
    rw [namesText, splitCommas_tail _ (fun c hc => (regName_chars k c hc).1)]
    simp [(trim_name _).1, (trim_name _).2, Function.comp_def]
  have hnames : ∀ l : List RegIx, (l.map regName).mapM parseReg = some l := by
    intro l
    induction l with
    | nil => rfl
    | cons a as ih => simp [parseReg_name, ih]
  rw [hsplit, hnames]

theorem operandText_semi (ks : List RegIx) : ∀ c ∈ operandText ks, c ≠ ';' := by
  cases ks with
  | nil => simp [operandText]
  | cons k ks =>
    rw [operandText_eq]
    exact List.forall_mem_cons.mpr ⟨by decide, namesText_semi k ks⟩

/-- The operands begin with a blank, which ends the mnemonic. -/
theorem takeWhile_operandText (ks : List RegIx) : (operandText ks).takeWhile (fun c => !isBlank c) = [] := by
  cases ks with
  | nil => rfl
  | cons k ks => rw [operandText_eq, List.takeWhile_cons_of_neg (by decide)]

theorem dropWhile_operandText (ks : List RegIx) :
    (operandText ks).dropWhile (fun c => !isBlank c) = operandText ks := by
  cases ks with
  | nil => rfl
  | cons k ks => rw [operandText_eq, List.dropWhile_cons_of_neg (by decide)]

/-! ## Lines -/

/-- A printed line begins and ends with no blank. -/
theorem trim_line (m : List Char) (hm : IsMnemonic m) (ks : List RegIx) :
    trimBlanks (m ++ operandText ks) = m ++ operandText ks := by
  obtain ⟨hne, hchars⟩ := hm
  obtain ⟨c, m', rfl⟩ := List.exists_cons_of_ne_nil hne
  have hlast : ∃ l d, c :: m' ++ operandText ks = l ++ [d] ∧ isBlank d = false := by
    cases ks with
    | nil =>
      exact ⟨_, _, (List.append_nil _).trans (List.dropLast_append_getLast hne).symm,
        (hchars _ (List.getLast_mem hne)).1⟩
    | cons k ks =>
      obtain ⟨l, d, hl, hd⟩ := namesText_last k ks
      exact ⟨c :: m' ++ ' ' :: l, d, by simp [operandText_eq, hl], hd⟩
  obtain ⟨l, d, hl, hd⟩ := hlast
  exact trim_id c _ l d hl (hchars c List.mem_cons_self).1 hd

/-- The parser cuts a printed line into its mnemonic and its registers. -/
theorem parseLine_printed (m : List Char) (hm : IsMnemonic m) (ks : List RegIx) :
    parseLine (m ++ operandText ks) = assemble m ks := by
  have hcode : trimBlanks ((m ++ operandText ks).takeWhile fun c => c != ';') = m ++ operandText ks := by
    rw [List.takeWhile_eq_self_iff.mpr, trim_line m hm ks]
    intro c hc
    rcases List.mem_append.mp hc with hc | hc
    · obtain ⟨-, hsemi, -⟩ := hm.2 c hc
      exact bne_iff_ne.mpr hsemi
    · exact bne_iff_ne.mpr (operandText_semi ks c hc)
  have hword : ∀ c ∈ m, (!isBlank c) = true := fun c hc => by simp [hm.2 c hc]
  have hupper : m.map Char.toUpper = m := (List.map_congr_left fun c hc => (hm.2 c hc).2.2).trans (List.map_id m)
  rw [parseLine, hcode, List.takeWhile_append_of_pos hword, List.dropWhile_append_of_pos hword, takeWhile_operandText,
    dropWhile_operandText, List.append_nil, hupper]
  cases ks with
  | nil => rfl
  | cons k ks =>
    obtain ⟨c, l, hcons, -⟩ := namesText_head k ks
    rw [operandText_eq, namesText_trim, if_neg (by simp [hcons]), parse_namesText]
    rfl

/-- Settles O6: a mnemonic and the registers are read back, and then looked up. -/
theorem assemblerRoundTrip : Obligations.AssemblerRoundTrip := by
  refine ⟨fun i => ?_, fun rd ra rc => ⟨?_, ?_⟩⟩
  · exact (parseLine_printed _ (isMnemonic_mnemonicOf i) _).trans (assemble_mnemonicOf i)
  · exact parseLine_printed _ (by simp [IsMnemonic, isBlank]) _
  · exact parseLine_printed _ (by simp [IsMnemonic, isBlank]) _

end Sys2Proof.Machine
end

section
/-! PROOFS. What the inverse of 2^W does to residues (00_scope.md R14), and the commands around it: the body that wants
an odd modulus, and a command that reads what another has left (40_montgomery.md R60 to R64). -/

namespace Sys2Proof.Machine

/-! ## Residues under the inverse of 2^W -/

/-- Rinv_N cancels 2^W: a residue goes into Montgomery form and comes back (40_montgomery.md R64). -/
theorem IsRinv.form_mul_mod {W N r : Nat} (h : IsRinv W N r) (a : Nat) : a * 2 ^ W % N * r % N = a % N := by
  obtain ⟨-, hinv⟩ := h
  have hone : 2 ^ W * r ≡ 1 [MOD N] := hinv
  have hform : a * 2 ^ W % N * r ≡ a [MOD N] :=
    calc a * 2 ^ W % N * r
        ≡ a * 2 ^ W * r [MOD N] := (Nat.mod_modEq _ _).mul_right r
      _ = a * (2 ^ W * r) := by ring
      _ ≡ a * 1 [MOD N] := hone.mul_left a
      _ = a := by ring
  exact hform

/-- The multiplier works on residues: one factor 2^W of a product is cancelled. -/
theorem mont_eq_of_modEq {W N u v c : Nat} (hN : N % 2 = 1) (h : u * v ≡ c * 2 ^ W [MOD N]) :
    mont W N u v = c % N :=
  calc mont W N u v
      = c * 2 ^ W % N * montInv W N % N := (h.trans (Nat.mod_modEq _ _).symm).mul_right _
    _ = c % N := (isRinv_montInv W N hN).form_mul_mod c

/-- The product with R² mod N is the Montgomery form (40_montgomery.md R63). -/
theorem mont_rSquared (W N a : Nat) (hN : N % 2 = 1) : mont W N (a % N) (2 ^ (2 * W) % N) = a * 2 ^ W % N :=
  mont_eq_of_modEq hN <|
    calc a % N * (2 ^ (2 * W) % N)
        ≡ a * 2 ^ (2 * W) [MOD N] := (Nat.mod_modEq _ _).mul (Nat.mod_modEq _ _)
      _ = a * 2 ^ W * 2 ^ W := by ring

/-- The product of two Montgomery forms is the form of the product (40_montgomery.md R61). -/
theorem mont_forms (W N a b : Nat) (hN : N % 2 = 1) :
    mont W N (a * 2 ^ W % N) (b * 2 ^ W % N) = a * b * 2 ^ W % N :=
  mont_eq_of_modEq hN <|
    calc a * 2 ^ W % N * (b * 2 ^ W % N)
        ≡ a * 2 ^ W * (b * 2 ^ W) [MOD N] := (Nat.mod_modEq _ _).mul (Nat.mod_modEq _ _)
      _ = a * b * 2 ^ W * 2 ^ W := by ring

/-! ## A command with an odd modulus -/

/-- A body that reports MODULUS for an even N and else stages a residue modulo N: the shape of R62 to R64. -/
theorem exec_of_oddModulus_body (i : Instr) (s : State) (rd rc : RegIx) (v : Nat) (hwf : s.RegsWf) (hruns : s.Runs i)
    (hrd : rd ∈ i.usedRegs)
    (hb : bodyResult i s = if s.opC rc % 2 = 0 then .err .modulus else .ok [(rd, v % s.opC rc)] false) :
    ∃ t, exec i s = .next t ∧ (s.opC rc % 2 = 0 → Fails s t .modulus)
      ∧ (s.opC rc % 2 = 1 → CompletesWith s t rd (v % s.opC rc)) := by
  refine ⟨_, exec_runs i s hruns, fun heven => ?_, fun hodd => ?_⟩
  · exact fails_of_bodyResult i s _ (by rw [hb, if_pos heven])
  · have hpos : s.opC rc ≠ 0 := by omega
    exact completesWith_of_bodyResult i s rd _ hwf (hruns.reg_lt hrd) (s.mod_operand_lt 2 rc v hpos)
      (by rw [hb, if_neg (by omega)])

/-! ## A command after a command -/

/-- A legal command whose registers exist and whose sources are written runs, in both kinds of instance. -/
theorem State.runs_of_allWritten {s : State} {i : Instr} (hlegal : i.wellFormed = true)
    (hregs : ∀ k ∈ i.usedRegs, k.val < s.params.nreg) (hw : s.allWritten i.sources = true) : s.Runs i :=
  ⟨⟨hlegal, hregs⟩, by rw [State.readable, hw, Bool.or_true]⟩

/-- A command keeps the shape of the register file (10_state.md R19). -/
theorem exec_regsWf (i : Instr) (s t : State) (h : s.RegsWf) (ht : exec i s = .next t) : t.RegsWf := by
  rcases exec_next_cases i s t ht with ⟨c, -, rfl⟩ | ⟨-, rfl⟩
  · exact s.complete_regsWf _ h
  · exact State.complete_regsWf _ (s.afterRead i.sources) h

/-- A register that is written and whose words are kept is written, and reads the same whatever the free values are. -/
theorem State.written_and_operand_of_kept (s t : State) (k : RegIx) (hp : t.params = s.params)
    (hx : ∀ j, t.word k.val j = s.word k.val j) (hw : s.written k.val = true) :
    t.written k.val = true ∧ ∀ f, t.operand f k = s.operand f k := by
  refine ⟨by simpa only [State.written, hp, hx] using hw, fun f => ?_⟩
  rw [State.operand, State.operand, hp]
  refine congrArg wordsToNat (List.map_congr_left fun j hj => ?_)
  obtain ⟨w, hword⟩ := Option.isSome_iff_exists.mp (List.all_eq_true.mp hw j hj)
  simp only [State.readWord, hx, hword, Option.getD_some]

end Sys2Proof.Machine
end

section
/-! PROOFS. The obligations O10 to O13, O22 and O23. -/

namespace Sys2Proof.Machine

/-- Settles O10, by the three ends of MONTMUL's body. -/
theorem montmulGivesTheMontgomeryProduct : Obligations.MontmulGivesTheMontgomeryProduct := by
  intro s rd ra rb rc hwf hruns
  refine ⟨_, exec_runs _ s hruns, fun heven => ?_, fun hodd hrange => ?_, fun hodd ha hb => ?_⟩
  · exact fails_of_bodyResult _ s _ (if_pos heven)
  · exact fails_of_bodyResult _ s _ ((if_neg (by omega)).trans (if_pos hrange))
  · have hpos : s.opC rc ≠ 0 := by omega
    exact ⟨_, isRinv_montInv s.params.width _ hodd,
      completesWith_of_bodyResult _ s rd _ hwf (hruns.reg_lt (by simp [Instr.usedRegs]))
        (s.mod_operand_lt 2 rc _ hpos) ((if_neg (by omega)).trans (if_neg (by omega)))⟩

/-- Settles O11: MONTR2 stages 2^(2W) modulo an odd N. -/
theorem montr2GivesRSquared : Obligations.Montr2GivesRSquared := fun s rd rc hwf hruns =>
  exec_of_oddModulus_body _ s rd rc _ hwf hruns (by simp [Instr.usedRegs]) rfl

/-- Settles O12: TOMONT stages a · 2^W modulo an odd N. -/
theorem tomontGivesMontgomeryForm : Obligations.TomontGivesMontgomeryForm := fun s rd ra rc hwf hruns =>
  exec_of_oddModulus_body _ s rd rc _ hwf hruns (by simp [Instr.usedRegs]) rfl

/-- Settles O13: FROMMONT stages a · Rinv_N modulo an odd N, and the model's Rinv_N is the inverse. -/
theorem frommontLeavesMontgomeryForm : Obligations.FrommontLeavesMontgomeryForm := by
  intro s rd ra rc hwf hruns
  obtain ⟨t, ht, heven, hodd⟩ := exec_of_oddModulus_body (.frommont rd ra rc) s rd rc
    (s.opA ra * montInv s.params.width (s.opC rc)) hwf hruns (by simp [Instr.usedRegs]) rfl
  exact ⟨t, ht, heven, fun h => ⟨_, isRinv_montInv _ _ h, hodd h⟩⟩

/-- Settles O22: each identity is one use of the multiplier on residues, or of the inverse. -/
theorem montgomeryFormIdentities : Obligations.MontgomeryFormIdentities := by
  intro W N a b hN _
  have hinv := isRinv_montInv W N hN
  refine ⟨mont_rSquared W N a hN, hinv.form_mul_mod a, by rw [mont, mul_one], ?_⟩
  rw [mont_forms W N a b hN]
  exact hinv.form_mul_mod (a * b)

/-- Settles O23: TOMONT leaves the form in `rd` and the modulus as it was, so FROMMONT runs and cancels 2^W. -/
theorem frommontUndoesTomont : Obligations.FrommontUndoesTomont := by
  intro s t u rd rd' ra rc hwf hruns hrd' hne hmod hodd ht hu
  obtain ⟨t', ht', -, hform⟩ := tomontGivesMontgomeryForm s rd ra rc hwf hruns
  obtain rfl : t' = t := Host.Outcome.next.inj (ht'.symm.trans ht)
  obtain ⟨⟨-, -, -, -, hparams, -⟩, hwritten, hvalue, hkeeps⟩ := hform hodd
  obtain ⟨hmod', hoperand⟩ := State.written_and_operand_of_kept s t' rc hparams
    (fun j => hkeeps rc.val j (by simpa [Fin.val_inj] using hne.symm)) hmod
  have hN : t'.opC rc = s.opC rc := hoperand 2
  have hA : t'.opA rd = s.opA ra * 2 ^ s.params.width % s.opC rc := hvalue 0
  have hruns' : t'.Runs (.frommont rd' rd rc) := by
    have hrd : rd.val < s.params.nreg := hruns.reg_lt (by simp [Instr.usedRegs])
    have hrc : rc.val < s.params.nreg := hruns.reg_lt (by simp [Instr.usedRegs])
    exact State.runs_of_allWritten rfl (by simpa [Instr.usedRegs, hparams] using ⟨hrd', hrd, hrc⟩)
      (by simp [State.allWritten, Instr.sources, hwritten, hmod'])
  obtain ⟨u', hu', -, hback⟩ := frommontLeavesMontgomeryForm t' rd' rd rc (exec_regsWf _ s t' hwf ht) hruns'
  obtain rfl : u' = u := Host.Outcome.next.inj (hu'.symm.trans hu)
  obtain ⟨r, hr, hdone⟩ := hback (by rw [hN, hodd])
  rw [hN, hparams] at hr
  rwa [hN, hA, hr.form_mul_mod] at hdone

end Sys2Proof.Machine
end

section
/-! PROOFS. The square-and-multiply loop on any form that the multiplier multiplies, and the body of a command that
wants a modulus other than 0 (41_modexp.md R65, R66, R68). -/

namespace Sys2Proof.Machine

/-- If the multiplier takes the forms of two numbers to the form of their product, then the loop takes the form of the
base to the form of its power. -/
theorem expLoop_form (mul : Nat → Nat → Nat) (form : Nat → Nat)
    (hmul : ∀ a b, mul (form a) (form b) = form (a * b)) (g e n : Nat) (he : e < 2 ^ n) :
    expLoop mul (form g) e n (form 1) = form (g ^ e) := by
  have h := expLoop_rep mul (form g) e (fun acc k => acc = form (g ^ k)) (by rw [pow_one])
    (by rintro u v k l rfl rfl; rw [hmul, pow_add]) n (form 1) 0 (by rw [pow_zero])
  rwa [Nat.zero_mul, Nat.zero_add, Nat.mod_eq_of_lt he] at h

/-- The form of plain residues, which R68 uses for an even modulus. -/
theorem expLoop_residues (N g e n : Nat) (he : e < 2 ^ n) :
    expLoop (fun u v => u * v % N) (g % N) e n (1 % N) = g ^ e % N :=
  expLoop_form _ (· % N) (fun a b => (Nat.mul_mod a b N).symm) g e n he

/-- The Montgomery form, which R68 uses for an odd modulus. -/
theorem expLoop_mont (W N g e n : Nat) (hN : N % 2 = 1) (he : e < 2 ^ n) :
    expLoop (mont W N) (g * 2 ^ W % N) e n (2 ^ W % N) = g ^ e * 2 ^ W % N := by
  have h := expLoop_form (mont W N) (· * 2 ^ W % N) (fun a b => mont_forms W N a b hN) g e n he
  simpa only [one_mul] using h

/-- The product with 1 leaves the Montgomery form (40_montgomery.md R64). -/
theorem mont_form_one (W N a : Nat) (hN : N % 2 = 1) : mont W N (a * 2 ^ W % N) 1 = a % N :=
  mont_eq_of_modEq hN <|
    calc a * 2 ^ W % N * 1
        ≡ a * 2 ^ W * 1 [MOD N] := (Nat.mod_modEq _ _).mul_right 1
      _ = a * 2 ^ W := mul_one _

/-- A body that reports MODULUS for N = 0 and else stages a residue modulo N: the shape of R65 and R66. -/
theorem exec_of_nonzeroModulus_body (i : Instr) (s : State) (rd rc : RegIx) (v : Nat) (hwf : s.RegsWf)
    (hruns : s.Runs i) (hrd : rd ∈ i.usedRegs)
    (hb : bodyResult i s = if s.opC rc = 0 then .err .modulus else .ok [(rd, v % s.opC rc)] false) :
    ∃ t, exec i s = .next t ∧ (s.opC rc = 0 → Fails s t .modulus)
      ∧ (s.opC rc ≠ 0 → CompletesWith s t rd (v % s.opC rc)) := by
  refine ⟨_, exec_runs i s hruns, fun hzero => ?_, fun hN => ?_⟩
  · exact fails_of_bodyResult i s _ (by rw [hb, if_pos hzero])
  · exact completesWith_of_bodyResult i s rd _ hwf (hruns.reg_lt hrd) (s.mod_operand_lt 2 rc v hN)
      (by rw [hb, if_neg hN])

end Sys2Proof.Machine
end

section
/-! PROOFS. The obligations O14, O15 and O24. -/

namespace Sys2Proof.Machine

/-- Settles O14: MODRED stages a modulo a nonzero N. -/
theorem modredReduces : Obligations.ModredReduces := fun s rd ra rc hwf hruns =>
  exec_of_nonzeroModulus_body (.modred rd ra rc) s rd rc (s.opA ra) hwf hruns (by simp [Instr.usedRegs]) rfl

/-- Settles O15: MODMUL stages the exact product modulo a nonzero N. -/
theorem modmulMultiplies : Obligations.ModmulMultiplies := fun s rd ra rb rc hwf hruns =>
  exec_of_nonzeroModulus_body (.modmul rd ra rb rc) s rd rc (s.opA ra * s.opB rb) hwf hruns
    (by simp [Instr.usedRegs]) rfl

/-- Settles O24: the loop raises plain residues for an even N, and Montgomery forms between the two conversions for an
odd one. -/
theorem referenceExponentiationIsThePower : Obligations.ReferenceExponentiationIsThePower := by
  intro W g e N _ _ he
  rcases Nat.mod_two_eq_zero_or_one N with heven | hodd
  · rw [modexpRef, if_pos heven, expLoop_residues N g e W he]
  · have hne : N % 2 ≠ 0 := by omega
    rw [modexpRef, if_neg hne, mont_rSquared W N g hodd, expLoop_mont W N g e W hodd he, mont_form_one W N _ hodd]

end Sys2Proof.Machine
end

section
/-! PROOFS. The inverse that the Bézout coefficient gives (42_euclid.md R72), the bound of R69 on natural magnitudes, and
the sign that R73 puts back. -/

namespace Sys2Proof.Machine

/-- The value that MODINV stages is bx modulo m. -/
theorem xgcd_inverse_cast (a m : Nat) (hm : m ≠ 0) :
    (((xgcd a m).1 % (m : Int)).toNat : Int) = (xgcd a m).1 % (m : Int) :=
  Int.toNat_of_nonneg (Int.emod_nonneg _ (by exact_mod_cast hm))

theorem xgcd_inverse_lt (a m : Nat) (hm : m ≠ 0) : ((xgcd a m).1 % (m : Int)).toNat < m := by
  have h : (xgcd a m).1 % (m : Int) < m := Int.emod_lt_of_pos _ (by exact_mod_cast Nat.pos_of_ne_zero hm)
  rw [← xgcd_inverse_cast a m hm] at h
  exact_mod_cast h

/-- Modulo m, Bézout's identity leaves a · bx = gcd(a, m). -/
theorem mul_xgcd_inverse_modEq (a m : Nat) (hm : m ≠ 0) :
    a * ((xgcd a m).1 % (m : Int)).toNat ≡ Nat.gcd a m [MOD m] := by
  rw [← Int.natCast_modEq_iff, Nat.cast_mul, xgcd_inverse_cast a m hm]
  calc (a : Int) * ((xgcd a m).1 % (m : Int))
      ≡ (a : Int) * (xgcd a m).1 [ZMOD m] := (Int.mod_modEq _ _).mul_left _
    _ ≡ (a : Int) * (xgcd a m).1 + (m : Int) * (xgcd a m).2 [ZMOD m] := Int.modEq_add_fac_self.symm
    _ = (Nat.gcd a m : Int) := xgcd_bezout a m

/-- A magnitude below 2^n is at most 2^n − 1. -/
theorem natAbs_le_of_abs_lt_two_pow {z : Int} {n : Nat} (h : |z| < 2 ^ n) : z.natAbs ≤ 2 ^ n - 1 := by
  refine Nat.le_sub_one_of_lt ?_
  rw [Int.abs_eq_natAbs] at h
  exact_mod_cast h

theorem mul_hostSign (a : Int) : a * hostSign a = (a.natAbs : Int) := by
  unfold hostSign
  split <;> omega

end Sys2Proof.Machine
end

section
/-! PROOFS. The obligations O19, O25 and O28. -/

namespace Sys2Proof.Machine

/-- Settles O19, by the three ends of MODINV's body. -/
theorem modinvInverts : Obligations.ModinvInverts := by
  intro s rd ra rc hwf hruns
  refine ⟨_, exec_runs _ s hruns, fun hzero => ?_, fun hm hgcd => ?_, fun hm hgcd => ?_⟩
  · exact fails_of_bodyResult _ s _ (if_pos hzero)
  · exact fails_of_bodyResult _ s _ ((if_neg hm).trans (if_pos hgcd))
  · have hlt := xgcd_inverse_lt (s.opA ra) (s.opC rc) hm
    have hinv := mul_xgcd_inverse_modEq (s.opA ra) (s.opC rc) hm
    rw [hgcd] at hinv
    exact ⟨_, completesWith_of_bodyResult _ s rd _ hwf (hruns.reg_lt (by simp [Instr.usedRegs]))
      (hlt.trans (s.operand_lt 2 rc)) ((if_neg hm).trans (if_neg (not_not.mpr hgcd))), hlt, hinv,
      xgcd_inverse_cast _ _ hm⟩

/-- Settles O25: the recursion's equations without the fuel, and the identity and the bound by induction along it. -/
theorem xgcdIsTheBezoutPairOfTheRecursion : Obligations.XgcdIsTheBezoutPairOfTheRecursion := by
  refine ⟨xgcd_zero_right, fun a b hb => ⟨Nat.mod_lt a (Nat.pos_of_ne_zero hb), xgcd_step a b hb⟩, xgcd_bezout,
    fun W a b hW ha hb => ?_⟩
  obtain ⟨hx, hy⟩ := abs_xgcd_lt W a b hW ha hb
  exact ⟨natAbs_le_of_abs_lt_two_pow hx, natAbs_le_of_abs_lt_two_pow hy⟩

/-- Settles O28: the signs turn the operands into their magnitudes, of which XGCD gives the Bézout pair. -/
theorem hostSignedEuclidIsBezout : Obligations.HostSignedEuclidIsBezout := by
  intro a b
  simp only [hostExtendedEuclid, ← mul_assoc, mul_hostSign]
  exact xgcd_bezout a.natAbs b.natAbs

end Sys2Proof.Machine
end

section
/-! PROOFS. The Rabin-Miller round of R75 said in powers, and why a prime passes it (43_primality.md R75, R77). -/

namespace Sys2Proof.Machine

/-! ## The round in powers -/

/-- What R75 tests of a witness `w` for an odd `n` with n − 1 = 2^e · d, said in powers. -/
abbrev PassesRound (w n e d : Nat) : Prop := w ^ d % n = 1 ∨ ∃ r, r < e ∧ w ^ (2 ^ r * d) % n = n - 1

/-- The powers of a round are t = w^d mod n and its repeated squares. -/
theorem passesRound_succ_iff (w n e d : Nat) :
    PassesRound w n (e + 1) d ↔
      (w ^ d % n = 1 ∨ w ^ d % n = n - 1) ∨ ∃ r, r < e ∧ (w ^ d % n) ^ 2 ^ (r + 1) % n = n - 1 := by
  have hpow : ∀ r, w ^ (2 ^ r * d) % n = (w ^ d % n) ^ 2 ^ r % n := fun r => by
    rw [← Nat.pow_mod, ← pow_mul, mul_comm]
  simp only [PassesRound, hpow, Nat.exists_lt_succ_left, or_assoc, pow_zero, pow_one, Nat.mod_mod]

/-- With the split of R74, the model's round is the round in powers. -/
theorem witnessPasses_iff (w n e d : Nat) (hn : 3 ≤ n) (hsplit : splitTwos (Nat.log2 (n - 1)) (n - 1) = (e + 1, d)) :
    witnessPasses w n = true ↔ PassesRound w n (e + 1) d := by
  rw [passesRound_succ_iff, witnessPasses, hsplit, powMod_eq]
  by_cases hstart : w ^ d % n = 1 ∨ w ^ d % n = n - 1
  · simp [hstart]
  · obtain ⟨hone, hneg⟩ := not_or.mp hstart
    simp [hone, hneg, squareLoop_spec n hn e _ hone hneg]

/-- For an odd n the split of R74 takes out at least one factor 2. -/
theorem exists_splitTwos_of_odd (n : Nat) (hodd : n % 2 = 1) (hn : 3 ≤ n) :
    ∃ e d, splitTwos (Nat.log2 (n - 1)) (n - 1) = (e + 1, d) ∧ n - 1 = 2 ^ (e + 1) * d ∧ d % 2 = 1 := by
  obtain ⟨hsplit, hd⟩ := splitTwos_spec (Nat.log2 (n - 1)) (n - 1) (by omega) Nat.lt_log2_self
  rcases hs : splitTwos (Nat.log2 (n - 1)) (n - 1) with ⟨_ | e, d⟩
  · simp only [hs, pow_zero, one_mul] at hsplit hd
    omega
  · simp only [hs] at hsplit hd
    exact ⟨e, d, rfl, hsplit, hd⟩

/-- A witness in range for an odd n ≥ 5 passes the checks of R75. -/
theorem rmwitResult_of_inRange (w n : Nat) (hodd : n % 2 = 1) (hn : 5 ≤ n) (hlo : 2 ≤ w) (hhi : w ≤ n - 2) :
    rmwitResult w n = .ok [] (witnessPasses w n) := by
  rw [rmwitResult, if_neg (by omega), if_neg (by omega), if_neg (by omega)]

/-! ## Primes -/

/-- Repeated squaring reaches 1 only from 1 or through −1, for 1 has no other square roots. -/
theorem eq_one_or_exists_pow_eq_neg_one {R : Type*} [Ring R] [NoZeroDivisors R] (x : R) (e : Nat)
    (h : x ^ 2 ^ e = 1) : x = 1 ∨ ∃ r, r < e ∧ x ^ 2 ^ r = -1 := by
  induction e with
  | zero => exact .inl (by simpa using h)
  | succ e ih =>
    rw [pow_succ, pow_mul, sq_eq_one_iff] at h
    rcases h with hone | hneg
    · exact (ih hone).imp_right fun ⟨r, hr, hx⟩ => ⟨r, hr.trans e.lt_succ_self, hx⟩
    · exact .inr ⟨e, e.lt_succ_self, hneg⟩

/-- By Fermat's little theorem (w^d)^(2^e) = 1 modulo a prime. -/
theorem passesRound_of_prime (p w e d : Nat) (hp : p.Prime) (hsplit : p - 1 = 2 ^ e * d) (hw : ¬p ∣ w) :
    PassesRound w p e d := by
  have := Fact.mk hp
  have hfermat : ((w : ZMod p) ^ d) ^ 2 ^ e = 1 := by
    rw [← pow_mul, mul_comm, ← hsplit, ZMod.pow_card_sub_one_eq_one]
    rwa [Ne, ZMod.natCast_eq_zero_iff]
  have hval : ∀ k, w ^ k % p = ((w : ZMod p) ^ k).val := fun k => by
    rw [← Nat.cast_pow, ZMod.val_natCast]
  refine (eq_one_or_exists_pow_eq_neg_one _ e hfermat).imp (fun hone => ?_) fun ⟨r, hr, hneg⟩ => ⟨r, hr, ?_⟩
  · rw [hval, hone, ZMod.val_one]
  · rw [hval, mul_comm, pow_mul, hneg, ZMod.neg_val, if_neg one_ne_zero, ZMod.val_one]

/-- R77: RMWIT's body gives RESULT 1 for a prime n ≥ 5 and every witness in range. -/
theorem rmwitResult_of_prime (w p : Nat) (hp : p.Prime) (h5 : 5 ≤ p) (hlo : 2 ≤ w) (hhi : w ≤ p - 2) :
    rmwitResult w p = .ok [] true := by
  have hodd : p % 2 = 1 := hp.eq_two_or_odd.resolve_left (by omega)
  have hw : ¬p ∣ w := Nat.not_dvd_of_pos_of_lt (by omega) (by omega)
  obtain ⟨e, d, hsd, hsplit, -⟩ := exists_splitTwos_of_odd p hodd (by omega)
  rw [rmwitResult_of_inRange w p hodd h5 hlo hhi,
    (witnessPasses_iff w p e d (by omega) hsd).mpr (passesRound_of_prime p w (e + 1) d hp hsplit hw)]

/-! ## The command and the Host's loop around the round -/

/-- A body that stages no write completes with its flag. -/
theorem completesWithFlag_of_bodyResult (i : Instr) (s : State) (b : Bool) (hb : bodyResult i s = .ok [] b) :
    CompletesWithFlag s ((s.afterRead i.sources).complete (bodyResult i s)) b := by
  rw [hb]
  exact completesWithFlag_afterRead s i.sources b

theorem CompletesWithFlag.result_eq {s t : State} {b : Bool} (h : CompletesWithFlag s t b) : t.result = b := by
  obtain ⟨⟨-, -, hresult, -⟩, -⟩ := h
  exact hresult

/-- The certainty loop returns true when every round passes. -/
theorem witnessRounds_of_forall (n : Nat) (ws : List Nat) (h : ∀ w ∈ ws, rmwitResult w n = .ok [] true) :
    witnessRounds n ws = .ok true := by
  induction ws with
  | nil => rfl
  | cons w ws ih =>
    rw [List.forall_mem_cons] at h
    rw [witnessRounds, h.1]
    exact ih h.2

end Sys2Proof.Machine
end

section
/-! PROOFS. The obligations O20, O26, O27 and O29. -/

namespace Sys2Proof.Machine

/-- Settles O20, by the four ends of RMWIT's body; in the last one, RESULT is the round in powers. -/
theorem rmwitRunsOneWitnessRound : Obligations.RmwitRunsOneWitnessRound := by
  intro s ra rc hruns
  refine ⟨_, exec_runs _ s hruns, fun heven => ?_, fun hodd hsmall => ?_, fun hodd hn hout => ?_,
    fun hodd hn hlo hhi => ?_⟩
  · exact completesWithFlag_of_bodyResult _ s _ (if_pos heven)
  · exact fails_of_bodyResult _ s _ ((if_neg (by omega)).trans (if_pos hsmall))
  · exact fails_of_bodyResult _ s _ ((if_neg (by omega)).trans ((if_neg (by omega)).trans (if_pos hout)))
  · obtain ⟨e, d, hsd, hsplit, hd⟩ := exists_splitTwos_of_odd _ hodd (by omega)
    have hflag := completesWithFlag_of_bodyResult (.rmwit ra rc) s _ (rmwitResult_of_inRange _ _ hodd hn hlo hhi)
    have hround := witnessPasses_iff (s.opA ra) (s.opC rc) e d (by omega) hsd
    have hresult := hflag.result_eq
    rw [← hresult] at hflag hround
    exact ⟨e + 1, d, hsplit, hd, hflag, hround⟩

/-- Settles O26: a prime passes the round in powers. -/
theorem primesPassEveryWitness : Obligations.PrimesPassEveryWitness := fun s ra rc hruns hp h5 hlo hhi =>
  ⟨_, exec_runs _ s hruns,
    completesWithFlag_of_bodyResult (.rmwit ra rc) s true (rmwitResult_of_prime _ _ hp h5 hlo hhi)⟩

/-- Settles O27: no witness in range meets a check of R75, and the 218 rounds are evaluated. -/
theorem strongLiarsOf221 : Obligations.StrongLiarsOf221 := by
  intro w hlo hhi
  have hrounds : ∀ w < 220, 2 ≤ w → (witnessPasses w 221 = true ↔ w ∈ [21, 47, 174, 200]) := by decide +kernel
  rw [rmwitResult_of_inRange w 221 rfl (by decide) hlo hhi, ← hrounds w (by omega) hlo]
  simp

/-- Settles O29: every round of a prime p ≥ 5 passes; 3, 1 and the even numbers run no round. -/
theorem hostPrimalityAcceptsOddPrimes : Obligations.HostPrimalityAcceptsOddPrimes := by
  have hthree : ∀ ws : List Nat, hostIsProbablePrime 3 ws = .ok true := fun _ => rfl
  refine ⟨fun p ws hp hodd hws => ?_, hthree, fun n ws hn => ?_⟩
  · rcases eq_or_ne p 3 with rfl | h3
    · exact hthree ws
    · have h2 := hp.two_le
      rw [hostIsProbablePrime, if_neg (by omega), if_neg hp.ne_one, if_neg h3]
      exact witnessRounds_of_forall p ws fun w hw =>
        rmwitResult_of_prime w p hp (by omega) (hws w hw).1 (hws w hw).2
  · rcases hn with heven | rfl
    · exact if_pos heven
    · rfl

end Sys2Proof.Machine
end

section
/-! PROOFS. A command reads its source registers and no other state: one command on two states that agree on them
(44_control.md R80). -/

namespace Sys2Proof.Machine

/-! ## The checks of a command on its sources -/

theorem State.written_congr (s s' : State) (k : Nat) (hp : s.params = s'.params)
    (h : ∀ j, s.word k j = s'.word k j) : s'.written k = s.written k := by
  simp only [State.written, hp, h]

theorem State.readable_congr (s s' : State) (ks : List RegIx) (hp : s.params = s'.params)
    (h : ∀ k ∈ ks, ∀ j, s.word k.val j = s'.word k.val j) : s'.readable ks = s.readable ks := by
  have hw : s'.allWritten ks = s.allWritten ks := by
    rw [Bool.eq_iff_iff, State.allWritten, State.allWritten, List.all_eq_true, List.all_eq_true]
    exact forall₂_congr fun k hk => by rw [State.written_congr s s' k.val hp (h k hk)]
  rw [State.readable, State.readable, hw, hp]

/-- The errors a body can report (60_exceptions.md R86). -/
theorem bodyResult_err_code (i : Instr) (s : State) (c : ErrCode) (h : bodyResult i s = .err c) :
    c = .modulus ∨ c = .range ∨ c = .domain := by
  cases i <;>
    simp only [bodyResult, montmulResult, montr2Result, tomontResult, frommontResult, modredResult, modmulResult,
      modexpResult, gcdResult, xgcdResult, modinvResult, rmwitResult] at h
  all_goals
    repeat' split at h
    all_goals cases h <;> decide

/-! ## The registers that a completion writes -/

/-- The row a write gives depends on no row that it overwrites. -/
theorem writeRegFile_row_congr (n : Nat) (x x' : List (List (Option Word))) (k : RegIx) (v i : Nat)
    (hlen : x.length = x'.length) (h : i = k.val ∨ x.getD i [] = x'.getD i []) :
    (writeRegFile n x k v).getD i [] = (writeRegFile n x' k v).getD i [] := by
  rcases eq_or_ne i k.val with rfl | hne
  · rcases Nat.lt_or_ge k.val x.length with hk | hk
    · rw [writeRegFile_same n x k v hk, writeRegFile_same n x' k v (hlen ▸ hk)]
    · simp [writeRegFile, hk, hlen ▸ hk]
  · rw [writeRegFile_other n x k v i hne, writeRegFile_other n x' k v i hne, h.resolve_left hne]

theorem writeRegs_row_congr (n : Nat) (x x' : List (List (Option Word))) (ws : List (RegIx × Nat)) (i : Nat)
    (hlen : x.length = x'.length) (h : (∃ w ∈ ws, i = w.1.val) ∨ x.getD i [] = x'.getD i []) :
    (writeRegs n x ws).getD i [] = (writeRegs n x' ws).getD i [] := by
  induction ws generalizing x x' with
  | nil => exact h.resolve_left (by simp)
  | cons w ws ih =>
    refine ih (writeRegFile n x w.1 w.2) (writeRegFile n x' w.1 w.2) ?_ ?_
    · rw [writeRegFile_length, writeRegFile_length, hlen]
    · rw [List.exists_mem_cons_iff, or_comm (a := i = w.1.val), or_assoc] at h
      exact h.imp_right (writeRegFile_row_congr n x x' w.1 w.2 i hlen)

/-- From `s` and `s'` the completions `t` and `t'` give the same flags, and the same words of the registers `ds` or no
write at all. -/
def SameOutcome (ds : List RegIx) (s s' t t' : State) : Prop :=
  t'.result = t.result ∧ t'.errcode = t.errcode
    ∧ (t.errcode = .none → s.x.length = s'.x.length → ∀ k ∈ ds, ∀ j, t'.word k.val j = t.word k.val j)
    ∧ (t.errcode ≠ .none → t.x = s.x ∧ t'.x = s'.x)

theorem sameOutcome_complete_err (ds : List RegIx) (s s' : State) (c : ErrCode) (hc : c ≠ .none) :
    SameOutcome ds s s' (s.complete (.err c)) (s'.complete (.err c)) :=
  ⟨rfl, rfl, fun h => absurd h hc, fun _ => ⟨rfl, rfl⟩⟩

theorem sameOutcome_complete_ok (s s' : State) (ws : List (RegIx × Nat)) (b : Bool) (hp : s.params = s'.params) :
    SameOutcome (ws.map Prod.fst) s s' (s.complete (.ok ws b)) (s'.complete (.ok ws b)) := by
  refine ⟨rfl, rfl, fun _ hlen k hk j => ?_, fun h => absurd rfl h⟩
  obtain ⟨w, hw, rfl⟩ := List.mem_map.mp hk
  have hrow := writeRegs_row_congr s.params.wwords s.x s'.x ws w.1.val hlen (.inl ⟨w, hw, rfl⟩)
  simp only [State.word, State.complete_ok_x, ← hp, hrow]

/-! ## The command on both states -/

/-- The ways a command ends, on two states that agree on its sources at once. -/
theorem exec_cases_of_agree (i : Instr) (s s' : State) (hp : s.params = s'.params)
    (hf : s.freeCount = s'.freeCount) (h : ∀ k ∈ i.sources, ∀ j, s.word k.val j = s'.word k.val j) :
    (∃ t t', exec i s = .next t ∧ exec i s' = .next t' ∧ SameOutcome i.dests s s' t t')
    ∨ (exec i s = .fault .unwrittenOperand ∧ exec i s' = .fault .unwrittenOperand) := by
  have hread := State.readable_congr s s' i.sources hp h
  have hbody := bodyResult_congr i s s' hp hf h
  cases hlegal : i.wellFormed with
  | false =>
    exact .inl ⟨_, _, exec_illFormed i s hlegal, exec_illFormed i s' hlegal,
      sameOutcome_complete_err _ s s' .illegal (by decide)⟩
  | true =>
    rw [exec_eq_command i s hlegal, exec_eq_command i s' hlegal, hbody]
    rcases s.command_cases i.usedRegs i.sources (bodyResult i s) with ⟨hu, e⟩ | ⟨hu, ⟨hr, e⟩ | ⟨hr, e⟩⟩ <;> rw [e]
    · exact .inl ⟨_, _, rfl, s'.command_badreg _ _ _ (hp ▸ hu), sameOutcome_complete_err _ s s' .badreg (by decide)⟩
    · refine .inl ⟨_, _, rfl, s'.command_runs _ _ _ (hp ▸ hu) (hread.trans hr), ?_⟩
      cases hb : bodyResult i s with
      | ok ws b =>
        rw [← bodyResult_writes i s ws b hb]
        exact sameOutcome_complete_ok (s.afterRead i.sources) (s'.afterRead i.sources) ws b hp
      | err c =>
        have hc : c ≠ .none := by
          rcases bodyResult_err_code i s c hb with rfl | rfl | rfl <;> decide
        exact sameOutcome_complete_err _ (s.afterRead i.sources) (s'.afterRead i.sources) c hc
    · exact .inr ⟨rfl, s'.command_faults _ _ _ (hp ▸ hu) (hread.trans hr)⟩

/-- Settles O34: the checks, the body's result and the rows it writes are the same on both states. -/
theorem commandReadsOnlyItsSources : Obligations.CommandReadsOnlyItsSources := by
  intro i s s' hp hf h
  rcases exec_cases_of_agree i s s' hp hf h with ⟨u, u', e, e', hsame⟩ | ⟨e, e'⟩ <;> rw [e, e']
  · refine ⟨fun t ht => ?_, fun _ hfault => nomatch hfault⟩
    cases ht
    exact ⟨u', rfl, hsame⟩
  · exact ⟨fun _ ht => (nomatch ht), fun _ hfault => hfault⟩

end Sys2Proof.Machine
end

section
/-! PROOFS. What a Host access leaves of a command in progress (44_control.md R81, R82). -/

namespace Sys2Proof.Machine

/-- From `s` to `t` the command in progress goes on, and no operand register changes. -/
def KeepsCommand (s t : State) : Prop :=
  t.busy = true ∧ t.L = s.L ∧ t.x = s.x ∧ (s.done = false → t.done = false) ∧ t.result = s.result
    ∧ t.errcode = s.errcode

/-- CLEAR clears sticky bits and DONE alone. -/
theorem writeClear_keepsCommand (v : Word) (s : State) (hbusy : s.busy = true) : KeepsCommand s (writeClear v s) :=
  ⟨hbusy, rfl, rfl, fun h => by simp [h], rfl, rfl⟩

/-- A Host write keeps the command in progress, or it is an abort or a soft reset. -/
theorem hostWrite_keepsCommand_or (off : Nat) (v : Word) (s : State) (hbusy : s.busy = true) :
    KeepsCommand s (hostWrite off v s)
    ∨ (off = 0x0008 ∧ (v.getLsbD 1 = true ∨ v.getLsbD 2 = true)) := by
  unfold hostWrite
  split
  case h_3 hreg =>
    by_cases hv : v.getLsbD 1 = true ∨ v.getLsbD 2 = true
    · exact .inr ⟨regionOf_eq_ctrl s.params off hreg, hv⟩
    · obtain ⟨h1, h2⟩ : v.getLsbD 1 = false ∧ v.getLsbD 2 = false := by simpa using hv
      rw [writeCtrl_ie v s h2 (.inl h1)]
      exact .inl ⟨hbusy, rfl, rfl, id, rfl, rfl⟩
  case h_4 =>
    rw [writeCmd_busy v s hbusy]
    exact .inl ⟨hbusy, rfl, rfl, id, rfl, rfl⟩
  case h_6 => exact .inl (writeClear_keepsCommand v s hbusy)
  case h_7 i j _ =>
    rw [writeWindow_busy i j v s hbusy]
    exact .inl ⟨hbusy, rfl, rfl, id, rfl, rfl⟩
  all_goals exact .inl ⟨hbusy, rfl, rfl, id, rfl, rfl⟩

theorem hostRead_keepsCommand (off : Nat) (s t : State) (hbusy : s.busy = true) (h : hostRead off s = .next t) :
    KeepsCommand s t := by
  rw [hostRead_next off s t h]
  exact ⟨hbusy, rfl, rfl, id, rfl, rfl⟩

/-- A Host access keeps the command in progress, or it is the 32-bit CTRL write of an abort or a soft reset. -/
theorem hostAccess_keepsCommand_or (a : Access) (s t : State) (hbusy : s.busy = true)
    (h : hostAccess a s = .next t) :
    KeepsCommand s t
    ∨ (a = { kind := .write, off := 0x0008, size := 4, data := a.data }
        ∧ (a.data.getLsbD 1 = true ∨ a.data.getLsbD 2 = true)) := by
  rcases hostAccess_cases a s with e | ⟨-, -, e⟩ | ⟨hsup, hkind, e⟩ <;> rw [e] at h
  · cases h
    exact .inl ⟨hbusy, rfl, rfl, id, rfl, rfl⟩
  · exact .inl (hostRead_keepsCommand a.off s t hbusy h)
  · cases h
    refine (hostWrite_keepsCommand_or a.off a.data s hbusy).imp_right fun ⟨hoff, hv⟩ => ⟨?_, hv⟩
    have hsize : a.size = 4 := by
      by_contra hne
      exact absurd (a.supported_eq_false.mpr (.inl hne)) (by simp [hsup])
    rw [← hkind, ← hoff, ← hsize]

/-- Settles O57, by the kind of the first pending event. -/
theorem commandInProgressIsKept : Obligations.CommandInProgressIsKept := by
  intro s t h hbusy
  rcases step_cases s with ⟨hev, -⟩ | ⟨a, es, hev, e⟩ | ⟨es, hev, -⟩ | ⟨k, addr, size, v, es, -, e⟩
  · exact .inr (hev.imp_right fun ⟨es, hev⟩ => ⟨_, es, hev, .inl rfl⟩)
  · refine (hostAccess_keepsCommand_or a { s with events := es } t hbusy (e.symm.trans h)).imp_right
      fun ⟨ha, hv⟩ => ?_
    rcases event_of_access hev ha with hev | hev <;> refine .inr ⟨_, es, hev, .inr (.inr ⟨a.data, hv, ?_⟩)⟩
    · exact .inl rfl
    · exact .inr rfl
  · exact .inr (.inr ⟨_, es, hev, .inr (.inl rfl)⟩)
  · cases e.symm.trans h
    exact .inl ⟨hbusy, rfl, rfl, id, rfl, rfl⟩

end Sys2Proof.Machine
end

section
/-! PROOFS. The obligations O7, O9 and O41. -/

namespace Sys2Proof.Machine

/-- The bits that the table's decoder reads are those of the word it latches. -/
theorem decode_tableWord_of_decodeTableWord (w : Nat) (i : Instr) (h : decodeTableWord 32 w = some i) :
    decode (tableWord 32 w) = .ok i := by
  rw [decodeTableWord, if_neg (by decide), decodeBytes_lanesOf] at h
  split at h
  · rename_i hd
    cases h
    exact hd
  · cases h

/-- Settles O7: the Engine's step on the latched word. -/
theorem stepCompletesTheLatchedCommand : Obligations.StepCompletesTheLatchedCommand := by
  refine ⟨fun s i hbusy hd => ⟨fun hev => ?_, fun es hev => ?_⟩, fun s e hbusy hd hev => ?_, fun s i w hw => ?_⟩
  · exact (step_nil s hev).trans (engineStep_ok s i hbusy hd)
  · exact (step_engine s es hev).trans (engineStep_ok { s with events := es } i hbusy hd)
  · exact ⟨_, (step_nil s hev).trans (engineStep_illegal s e hbusy hd), fails_complete s .illegal⟩
  · exact (step_nil _ rfl).trans (engineStep_ok _ i rfl (decode_tableWord_of_decodeTableWord w i hw))

/-- Settles O9: NOP names no register, so it always runs its body, which stages no write. -/
theorem nopOnlyCompletes : Obligations.NopOnlyCompletes := by
  intro s
  have hruns : s.Runs .nop := State.runs_of_allWritten rfl (by simp [Instr.usedRegs]) rfl
  exact ⟨_, exec_runs .nop s hruns, completesWithFlag_afterRead s [] false, rfl⟩

/-- Settles O41, by BUSY. -/
theorem abortDiscardsTheCommand : Obligations.AbortDiscardsTheCommand := by
  intro s v es hev h1 h2
  refine ⟨_, step_write_register s 0x0008 v es (by decide) hev, ?_⟩
  rw [hostWrite_ctrl]
  rcases Bool.eq_false_or_eq_true s.busy with hbusy | hbusy
  · rw [writeCtrl_abort v { s with events := es } h2 h1 hbusy]
    exact ⟨rfl, rfl, rfl, rfl, fun _ => ⟨rfl, rfl, rfl, rfl, by simp [State.irq]⟩,
      fun hidle => by simp [hbusy] at hidle⟩
  · rw [writeCtrl_ie v { s with events := es } h2 (.inr hbusy)]
    exact ⟨rfl, rfl, rfl, hbusy, fun h => by simp [hbusy] at h, fun _ => ⟨rfl, rfl, rfl⟩⟩

end Sys2Proof.Machine
end

section
/-! PROOFS. The errors that each command reports (60_exceptions.md R86, R92). -/

namespace Sys2Proof.Machine

/-- The column of R86 that names the commands, for the errors of a body: a modulus of 0 or an even one, MONTMUL's and
RMWIT's range, and MODINV's missing inverse. -/
theorem opcode_of_bodyResult_err (i : Instr) (s : State) (c : ErrCode) (h : bodyResult i s = .err c) :
    (c = .modulus ∧ i.opcode ∈ [0x01#8, 0x02#8, 0x03#8, 0x04#8, 0x05#8, 0x06#8, 0x07#8, 0x0A#8])
    ∨ (c = .range ∧ i.opcode ∈ [0x01#8, 0x0B#8])
    ∨ (c = .domain ∧ i.opcode = 0x0A#8) := by
  cases i with
  | nop | gcd | xgcd => cases h
  | montmul rd ra rb rc =>
    simp only [bodyResult, montmulResult] at h
    split at h
    · cases h
      exact .inl (by simp [Instr.opcode])
    · split at h <;> cases h
      exact .inr (.inl (by simp [Instr.opcode]))
  | modinv rd ra rc =>
    simp only [bodyResult, modinvResult] at h
    split at h
    · cases h
      exact .inl (by simp [Instr.opcode])
    · split at h <;> cases h
      exact .inr (.inr (by simp [Instr.opcode]))
  | rmwit ra rc =>
    simp only [bodyResult, rmwitResult] at h
    refine .inr (.inl ⟨?_, by simp [Instr.opcode]⟩)
    repeat' split at h
    all_goals cases h <;> rfl
  | _ =>
    simp only [bodyResult, montr2Result, tomontResult, frommontResult, modredResult, modmulResult, modexpResult] at h
    split at h <;> cases h
    exact .inl (by simp [Instr.opcode])

/-- A command ends without an error, or it writes no register and reports the failed common check or the error of its
body. -/
theorem exec_errcode_cases (i : Instr) (s t : State) (h : exec i s = .next t) :
    t.errcode = .none
    ∨ ((t.x = s.x ∧ t.result = false)
      ∧ ((t.errcode = .illegal ∧ i.wellFormed = false)
        ∨ (t.errcode = .badreg ∧ ∃ k ∈ i.usedRegs, s.params.nreg ≤ k.val)
        ∨ bodyResult i s = .err t.errcode)) := by
  rcases exec_cases i s with ⟨c, ⟨hill, rfl⟩ | ⟨-, hreg, rfl⟩, e⟩ | ⟨-, e⟩ | ⟨-, -, e⟩ <;> rw [e] at h <;> cases h
  · exact .inr ⟨⟨rfl, rfl⟩, .inl ⟨rfl, hill⟩⟩
  · exact .inr ⟨⟨rfl, rfl⟩, .inr (.inl ⟨rfl, hreg⟩)⟩
  · cases bodyResult i s with
    | ok ws b => exact .inl rfl
    | err c => exact .inr ⟨⟨rfl, rfl⟩, .inr (.inr rfl)⟩

/-- Settles O32, by the error reported: none, that of a common check, or that of the body. -/
theorem errorCodesByCommand : Obligations.ErrorCodesByCommand := by
  intro i s t h
  rcases exec_errcode_cases i s t h with hc | ⟨hkept, ⟨hc, hill⟩ | ⟨hc, hreg⟩ | hbody⟩
  · simp [hc]
  · simp [hc, hkept, hill]
  · simp [hc, hkept, hreg]
  · rcases opcode_of_bodyResult_err i s _ hbody with ⟨hc, hop⟩ | ⟨hc, hop⟩ | ⟨hc, hop⟩ <;> rw [hc]
    · exact ⟨fun _ => hkept, by decide, nofun, nofun, fun _ => hop, nofun, nofun⟩
    · exact ⟨fun _ => hkept, by decide, nofun, nofun, nofun, fun _ => hop, nofun⟩
    · exact ⟨fun _ => hkept, by decide, nofun, nofun, nofun, nofun, fun _ => hop⟩

end Sys2Proof.Machine
end

section
/-! PROOFS. The pending events are worked off, one a step, and the last step ends the command in progress
(60_exceptions.md R85, 70_reset_and_hazards.md R111). -/

namespace Sys2Proof.Machine

/-! ## Every step takes one event and keeps the instance -/

/-- The instance and the pending events of `t` are those of `s`. -/
def KeepsQueue (s t : State) : Prop := t.params = s.params ∧ t.events = s.events

theorem writeCtrl_keepsQueue (v : Word) (s : State) : KeepsQueue s (writeCtrl v s) := by
  rcases writeCtrl_cases v s with e | ⟨b, e⟩ | ⟨b, -, e⟩ <;> rw [e] <;> exact ⟨rfl, rfl⟩

theorem writeCmd_keepsQueue (c : Word) (s : State) : KeepsQueue s (writeCmd c s) := by
  unfold writeCmd
  split <;> exact ⟨rfl, rfl⟩

theorem writeWindow_keepsQueue (i j : Nat) (v : Word) (s : State) : KeepsQueue s (writeWindow i j v s) := by
  unfold writeWindow
  split <;> exact ⟨rfl, rfl⟩

theorem hostWrite_keepsQueue (off : Nat) (v : Word) (s : State) : KeepsQueue s (hostWrite off v s) := by
  rcases hostWrite_cases off v s with e | e | e | e | ⟨i, j, -, e⟩ | e <;> rw [e]
  · exact ⟨rfl, rfl⟩
  · exact writeCtrl_keepsQueue v s
  · exact writeCmd_keepsQueue v s
  · exact ⟨rfl, rfl⟩
  · exact writeWindow_keepsQueue i j v s
  · exact ⟨rfl, rfl⟩

theorem hostAccess_keepsQueue (a : Access) (s t : State) (h : hostAccess a s = .next t) : KeepsQueue s t := by
  rcases hostAccess_cases a s with e | ⟨-, -, e⟩ | ⟨-, -, e⟩ <;> rw [e] at h
  · cases h
    exact ⟨rfl, rfl⟩
  · rw [hostRead_next a.off s t h]
    exact ⟨rfl, rfl⟩
  · cases h
    exact hostWrite_keepsQueue a.off a.data s

/-- The Engine's step ends the command in progress. -/
theorem engineStep_idles (s t : State) (h : engineStep s = .next t) : KeepsQueue s t ∧ t.busy = false := by
  rcases engineStep_next_cases s t h with ⟨hidle, rfl⟩ | ⟨-, ⟨i, -, he⟩ | ⟨-, rfl⟩⟩
  · exact ⟨⟨rfl, rfl⟩, hidle⟩
  · obtain ⟨hbusy, -, -, -, hparams, -, -, -, -, -, hevents⟩ := exec_completes i s t he
    exact ⟨⟨hparams, hevents⟩, hbusy⟩
  · exact ⟨⟨rfl, rfl⟩, rfl⟩

theorem step_takes_one_event (s t : State) (h : step s = .next t) :
    t.params = s.params ∧ t.events = s.events.tail := by
  rcases step_cases s with ⟨-, e⟩ | ⟨a, es, hev, e⟩ | ⟨es, hev, e⟩ | ⟨k, addr, size, v, es, hev, e⟩ <;> rw [e] at h
  · exact (engineStep_idles _ t h).1
  · have htail : s.events.tail = es := by
      rcases hev with hev | ⟨addr, hev, -⟩ <;> rw [hev, List.tail_cons]
    exact htail ▸ hostAccess_keepsQueue a { s with events := es } t h
  · cases h
    exact ⟨rfl, by rw [hev]; rfl⟩
  · cases h
    exact ⟨rfl, by rw [hev]; rfl⟩

/-! ## The run through the pending events -/

/-- With the events and one step more the run ends idle with nothing pending, unless a state on its way, of the same
instance, has no next state. -/
theorem runsTo_idle_or_stops (s : State) :
    (∃ t, RunsTo (s.events.length + 1) s t ∧ t.events = [] ∧ t.busy = false)
    ∨ ∃ n u, n ≤ s.events.length ∧ RunsTo n s u ∧ u.params = s.params ∧ ¬∃ t, step u = .next t := by
  induction hev : s.events generalizing s with
  | nil =>
    by_cases hstep : ∃ t, step s = .next t
    · obtain ⟨t, ht⟩ := hstep
      obtain ⟨⟨-, hevents⟩, hidle⟩ := engineStep_idles s t ((step_nil s hev).symm.trans ht)
      exact .inl ⟨t, ⟨t, ht, rfl⟩, hevents.trans hev, hidle⟩
    · exact .inr ⟨0, s, Nat.le_refl 0, rfl, rfl, hstep⟩
  | cons e es ih =>
    by_cases hstep : ∃ t, step s = .next t
    · obtain ⟨v, hv⟩ := hstep
      obtain ⟨hparams, hevents⟩ := step_takes_one_event s v hv
      rw [hev, List.tail_cons] at hevents
      rcases ih v hevents with ⟨t, hrun, hend⟩ | ⟨n, u, hn, hrun, hu, hstop⟩
      · exact .inl ⟨t, ⟨v, hv, hrun⟩, hend⟩
      · exact .inr ⟨n + 1, u, Nat.succ_le_succ hn, ⟨v, hv, hrun⟩, hu.trans hparams, hstop⟩
    · exact .inr ⟨0, s, Nat.zero_le _, rfl, rfl, hstep⟩

/-- A step that does not go on is the fault of a read that R32 names. -/
theorem step_faults_of_stops (s : State) (hp : s.params.Legal) (hfault : s.params.unwritten = .fault)
    (hstop : ¬∃ t, step s = .next t) : s.ReadsUnwritten ∧ ∃ f, step s = .fault f := by
  obtain ⟨-, hlegal⟩ := onlyUnwrittenReadsStop s
  obtain ⟨hword, hsource, -, hgoes⟩ := hlegal hp
  have hreads : s.ReadsUnwritten := by
    by_contra hnot
    obtain ⟨t, ht, -⟩ := hgoes hnot
    exact hstop ⟨t, ht⟩
  refine ⟨hreads, ?_⟩
  rcases hreads with hread | ⟨i, hnext, hsrc⟩
  · exact ⟨_, hword hread hfault⟩
  · exact ⟨_, hsource i hnext hsrc hfault⟩

/-- Settles O52: the run through the events can stop only at a read of an unwritten word, which a free instance never
stops at. -/
theorem pendingWorkEnds : Obligations.PendingWorkEnds := by
  refine fun s => ⟨fun hfree => ?_, fun hfault hp => ?_⟩ <;>
    rcases runsTo_idle_or_stops s with hend | ⟨n, u, hn, hrun, hparams, hstop⟩
  · exact hend
  · exact absurd ((onlyUnwrittenReadsStop u).1 (hparams ▸ hfree)) hstop
  · exact .inl hend
  · obtain ⟨hreads, f, hf⟩ := step_faults_of_stops u (hparams ▸ hp) (hparams ▸ hfault) hstop
    exact .inr ⟨n, u, f, hn, hrun, hreads, hf⟩

end Sys2Proof.Machine
end
